-- ==== Sys2Proof/Word.lean ====
section
/-! DEFINITION. The words of the machine: the widths of spec/00_scope.md R7 and spec/30_encoding.md R111. -/

namespace Sys2Proof

/-- One byte: a general register, a timer, a memory cell, the field `kk`. -/
abbrev Byte := BitVec 8

/-- Sixteen bits: `pc`, `I`, a stack entry, an instruction word. -/
abbrev Word := BitVec 16

/-- Four bits: a register index (`x`, `y`), the sprite height `n`, a key event. -/
abbrev Nibble := BitVec 4

/-- The twelve-bit address field `nnn`. -/
abbrev Addr12 := BitVec 12

/-- One framebuffer row: bit `c` is the pixel at column `c` (spec/41_framebuffer.md R189). -/
abbrev Row := BitVec 64

end Sys2Proof
end

