-- ==== Sys2Proof/Config.lean ====
section
/-! DEFINITION. What an implementation fixes (spec/00_scope.md R7, R8) and the free values of the spec. -/

namespace Sys2Proof

/-- `P_ADDR_LIMIT`: the spec admits 0x0FFF (its default) and 0xFFFF (spec/92_eei_decisions.md D4). -/
inductive AddrLimit where
  | space12
  | space16
  deriving DecidableEq, Repr

/-- `P_DECODE_5_9`: what 5XYn and 9XYn with n other than 0 are (spec/30_encoding.md R118). -/
inductive Decode59 where
  | strict
  | ignore
  deriving DecidableEq, Repr

/-- `P_DECODE_0`: what 0hE0 and 0hEE with h other than 0 are (spec/30_encoding.md R114). -/
inductive Decode0 where
  | exact
  | refuseAmbiguous
  deriving DecidableEq, Repr

/-- The parameters of spec/00_scope.md R8 that some rule reads, fixed for one run. -/
structure Params where
  addrLimit : AddrLimit
  decode59 : Decode59
  decode0 : Decode0
  deriving DecidableEq, Repr

/-- The three readings of 8FY6 and 8FYE (spec/92_eei_decisions.md D13): the shift of the original value is the
last write, the second statement shifts the flag just written, or the flag is the last write. -/
inductive ShiftReading where
  | shifted
  | shiftedFlag
  | flag
  deriving DecidableEq, Repr, Inhabited

/-- The two steps enabled in KEY_WAIT when a key is queued and CANCEL is 1 (spec/40_cycle_fsm.md R152). -/
inductive WaitChoice where
  | complete
  | cancel
  deriving DecidableEq, Repr, Inhabited

/-- The defaults of spec/00_scope.md R8. -/
def Config.defaults : Params := ⟨.space12, .strict, .exact⟩

/-- The largest value PC or I arithmetic may produce (spec/00_scope.md R8). -/
def Config.limitOf : AddrLimit → Nat
  | .space12 => 0x0FFF
  | .space16 => 0xFFFF

/-- The size of the address space `M` (spec/20_memory.md R80). -/
def Config.memSize : Nat := 0x1000

/-- The size of the font region 0x000 to 0x04F (spec/10_state.md R45). -/
def Config.fontSize : Nat := 0x50

/-- Where the ROM image is loaded, and the initial `pc` (spec/70_reset_and_hazards.md R390, R392). -/
def Config.entryPoint : Nat := 0x200

/-- The longest ROM image (spec/70_reset_and_hazards.md R391). -/
def Config.maxRom : Nat := 3584

/-- The default `FONT_ROM` (spec/10_state.md R45): sixteen glyphs of five bytes. -/
def Config.fontRom : List Byte :=
  [0xF0, 0x90, 0x90, 0x90, 0xF0] ++ [0x20, 0x60, 0x20, 0x20, 0x70] ++
  [0xF0, 0x10, 0xF0, 0x80, 0xF0] ++ [0xF0, 0x10, 0xF0, 0x10, 0xF0] ++
  [0x90, 0x90, 0xF0, 0x10, 0x10] ++ [0xF0, 0x80, 0xF0, 0x10, 0xF0] ++
  [0xF0, 0x80, 0xF0, 0x90, 0xF0] ++ [0xF0, 0x10, 0x20, 0x40, 0x40] ++
  [0xF0, 0x90, 0xF0, 0x90, 0xF0] ++ [0xF0, 0x90, 0xF0, 0x10, 0xF0] ++
  [0xF0, 0x90, 0xF0, 0x90, 0x90] ++ [0xE0, 0x90, 0xE0, 0x90, 0xE0] ++
  [0xF0, 0x80, 0x80, 0x80, 0xF0] ++ [0xE0, 0x90, 0x90, 0x90, 0xE0] ++
  [0xF0, 0x80, 0xF0, 0x80, 0xF0] ++ [0xF0, 0x80, 0xF0, 0x80, 0x80]

/-- FREE VALUE (log entry 7). The byte that the k-th draw finds on `rand_in`: no value and no law is given
(spec/45_timers_keys_random.md R321). -/
opaque Config.freeByte : Nat → Byte

/-- FREE VALUE (log entry 8). The reading of 8FY6 or 8FYE that the k-th draw takes
(spec/43_register_alu.md R259, R261). -/
opaque Config.freeReading : Nat → ShiftReading

/-- FREE VALUE (log entry 9). The order taken when completion and cancellation are both enabled in KEY_WAIT
(spec/40_cycle_fsm.md R152). -/
opaque Config.freeWait : Nat → WaitChoice

end Sys2Proof
end

