-- ==== Sys2Proof/Syntax.lean ====
section
/-! DEFINITION. The instructions: one constructor per row of spec/opcode_table.json, carrying the fields that the
row's pattern names (spec/30_encoding.md R122, R123). -/

namespace Sys2Proof

/-- The 35 instructions of spec/30_encoding.md R123. `x` and `y` are register indices, `kk` an immediate byte,
`nnn` an address and `n` a sprite height. SHR and SHL carry `y` although they do not read it: it is part of
their word. -/
inductive Instr where
  | sys (nnn : Addr12)
  | cls
  | ret
  | jp (nnn : Addr12)
  | call (nnn : Addr12)
  | seImm (x : Nibble) (kk : Byte)
  | sneImm (x : Nibble) (kk : Byte)
  | seReg (x y : Nibble)
  | ldImm (x : Nibble) (kk : Byte)
  | addImm (x : Nibble) (kk : Byte)
  | ldReg (x y : Nibble)
  | orReg (x y : Nibble)
  | andReg (x y : Nibble)
  | xorReg (x y : Nibble)
  | addReg (x y : Nibble)
  | sub (x y : Nibble)
  | shr (x y : Nibble)
  | subn (x y : Nibble)
  | shl (x y : Nibble)
  | sneReg (x y : Nibble)
  | ldI (nnn : Addr12)
  | jpV0 (nnn : Addr12)
  | rnd (x : Nibble) (kk : Byte)
  | drw (x y n : Nibble)
  | skp (x : Nibble)
  | sknp (x : Nibble)
  | ldVxDt (x : Nibble)
  | ldVxK (x : Nibble)
  | ldDtVx (x : Nibble)
  | ldStVx (x : Nibble)
  | addI (x : Nibble)
  | ldF (x : Nibble)
  | ldB (x : Nibble)
  | ldMemVx (x : Nibble)
  | ldVxMem (x : Nibble)
  deriving DecidableEq, Repr

/-- The decoder's verdict on a word (spec/30_encoding.md R122): an instruction, the unrecognized-opcode verdict,
or (only with `P_DECODE_0 = refuse_ambiguous`) a refusal. -/
inductive Decoded where
  | instr (i : Instr)
  | illegal
  | ambiguous
  deriving DecidableEq, Repr

end Sys2Proof
end

