-- ==== Sys2Proof/WellFormed.lean ====
section
/-! DEFINITION. Which instruction terms stand for a word: the fields' types hold every range, so the one check left is
that SYS does not carry the address of CLS or of RET (spec/30_encoding.md R114). -/

namespace Sys2Proof

/-- `0x00E0` is CLS and `0x00EE` is RET, so no word is SYS with either address (spec/30_encoding.md R114). -/
def Instr.wellFormed : Instr → Bool
  | .sys nnn => nnn != 0x0E0#12 && nnn != 0x0EE#12
  | _ => true

end Sys2Proof
end

