-- ==== Sys2Proof/Decode.lean ====
section
/-! DEFINITION. The decoder, total on every word and on any bytes, and the encoder (spec/30_encoding.md). -/

namespace Sys2Proof

/-- The operator `w[15:12]` (spec/30_encoding.md R111). -/
def fieldOp (w : Word) : Nibble := w.extractLsb' 12 4

/-- The field `x`, `w[11:8]` (spec/30_encoding.md R111). -/
def fieldX (w : Word) : Nibble := w.extractLsb' 8 4

/-- The field `y`, `w[7:4]` (spec/30_encoding.md R111). -/
def fieldY (w : Word) : Nibble := w.extractLsb' 4 4

/-- The field `n`, `w[3:0]` (spec/30_encoding.md R111). -/
def fieldN (w : Word) : Nibble := w.extractLsb' 0 4

/-- The field `kk`, `w[7:0]` (spec/30_encoding.md R111). -/
def fieldKk (w : Word) : Byte := w.extractLsb' 0 8

/-- The field `nnn`, `w[11:0]` (spec/30_encoding.md R111). -/
def fieldNnn (w : Word) : Addr12 := w.extractLsb' 0 12

/-- Operator 0 (spec/30_encoding.md R114). -/
def decodeZero (d : Decode0) (w : Word) : Decoded :=
  if w = 0x00E0#16 then .instr .cls
  else if w = 0x00EE#16 then .instr .ret
  else if d = .refuseAmbiguous ∧ (fieldKk w = 0xE0#8 ∨ fieldKk w = 0xEE#8) then .ambiguous
  else .instr (.sys (fieldNnn w))

/-- Operators 5 and 9: the low nibble is tested under `strict` and not under `ignore` (spec/30_encoding.md R118). -/
def decodeLowZero (d : Decode59) (w : Word) (i : Instr) : Decoded :=
  if d = .ignore ∨ fieldN w = 0#4 then .instr i else .illegal

/-- Operator 8 (spec/30_encoding.md R115). -/
def decodeEight (w : Word) : Decoded :=
  match (fieldN w).toNat with
  | 0x0 => .instr (.ldReg (fieldX w) (fieldY w))
  | 0x1 => .instr (.orReg (fieldX w) (fieldY w))
  | 0x2 => .instr (.andReg (fieldX w) (fieldY w))
  | 0x3 => .instr (.xorReg (fieldX w) (fieldY w))
  | 0x4 => .instr (.addReg (fieldX w) (fieldY w))
  | 0x5 => .instr (.sub (fieldX w) (fieldY w))
  | 0x6 => .instr (.shr (fieldX w) (fieldY w))
  | 0x7 => .instr (.subn (fieldX w) (fieldY w))
  | 0xE => .instr (.shl (fieldX w) (fieldY w))
  | _ => .illegal

/-- Operator E (spec/30_encoding.md R116). -/
def decodeE (w : Word) : Decoded :=
  if fieldKk w = 0x9E#8 then .instr (.skp (fieldX w))
  else if fieldKk w = 0xA1#8 then .instr (.sknp (fieldX w))
  else .illegal

/-- Operator F (spec/30_encoding.md R117). -/
def decodeF (w : Word) : Decoded :=
  if fieldKk w = 0x07#8 then .instr (.ldVxDt (fieldX w))
  else if fieldKk w = 0x0A#8 then .instr (.ldVxK (fieldX w))
  else if fieldKk w = 0x15#8 then .instr (.ldDtVx (fieldX w))
  else if fieldKk w = 0x18#8 then .instr (.ldStVx (fieldX w))
  else if fieldKk w = 0x1E#8 then .instr (.addI (fieldX w))
  else if fieldKk w = 0x29#8 then .instr (.ldF (fieldX w))
  else if fieldKk w = 0x33#8 then .instr (.ldB (fieldX w))
  else if fieldKk w = 0x55#8 then .instr (.ldMemVx (fieldX w))
  else if fieldKk w = 0x65#8 then .instr (.ldVxMem (fieldX w))
  else .illegal

/-- The decoder: first-level dispatch on the operator (spec/30_encoding.md R113, R124). -/
def decode (p : Params) (w : Word) : Decoded :=
  match (fieldOp w).toNat with
  | 0x0 => decodeZero p.decode0 w
  | 0x1 => .instr (.jp (fieldNnn w))
  | 0x2 => .instr (.call (fieldNnn w))
  | 0x3 => .instr (.seImm (fieldX w) (fieldKk w))
  | 0x4 => .instr (.sneImm (fieldX w) (fieldKk w))
  | 0x5 => decodeLowZero p.decode59 w (.seReg (fieldX w) (fieldY w))
  | 0x6 => .instr (.ldImm (fieldX w) (fieldKk w))
  | 0x7 => .instr (.addImm (fieldX w) (fieldKk w))
  | 0x8 => decodeEight w
  | 0x9 => decodeLowZero p.decode59 w (.sneReg (fieldX w) (fieldY w))
  | 0xA => .instr (.ldI (fieldNnn w))
  | 0xB => .instr (.jpV0 (fieldNnn w))
  | 0xC => .instr (.rnd (fieldX w) (fieldKk w))
  | 0xD => .instr (.drw (fieldX w) (fieldY w) (fieldN w))
  | 0xE => decodeE w
  | _ => decodeF w

/-- A fetched word is big-endian: the byte at the lower address is `w[15:8]` (spec/20_memory.md R82, R83). -/
def wordOfBytes (hi lo : Byte) : Word := hi ++ lo

/-- The decoder on bytes: the verdict on the first two and the bytes left, or none where fewer than two stand. -/
def decodeBytes (p : Params) : List Byte → Option (Decoded × List Byte)
  | hi :: lo :: rest => some (decode p (wordOfBytes hi lo), rest)
  | _ => none

/-- The shapes of spec/30_encoding.md R111: operator and address. -/
def encodeNnn (op : Nibble) (nnn : Addr12) : Word := op ++ nnn

/-- Operator, register and byte: an immediate or a sub-opcode (spec/30_encoding.md R111). -/
def encodeXkk (op x : Nibble) (kk : Byte) : Word := op ++ x ++ kk

/-- Operator, two registers and a nibble (spec/30_encoding.md R111). -/
def encodeXyn (op x y n : Nibble) : Word := op ++ x ++ y ++ n

/-- The encoder, from the table of spec/30_encoding.md R123. -/
def encode : Instr → Word
  | .sys nnn => encodeNnn 0x0#4 nnn
  | .cls => 0x00E0#16
  | .ret => 0x00EE#16
  | .jp nnn => encodeNnn 0x1#4 nnn
  | .call nnn => encodeNnn 0x2#4 nnn
  | .seImm x kk => encodeXkk 0x3#4 x kk
  | .sneImm x kk => encodeXkk 0x4#4 x kk
  | .seReg x y => encodeXyn 0x5#4 x y 0x0#4
  | .ldImm x kk => encodeXkk 0x6#4 x kk
  | .addImm x kk => encodeXkk 0x7#4 x kk
  | .ldReg x y => encodeXyn 0x8#4 x y 0x0#4
  | .orReg x y => encodeXyn 0x8#4 x y 0x1#4
  | .andReg x y => encodeXyn 0x8#4 x y 0x2#4
  | .xorReg x y => encodeXyn 0x8#4 x y 0x3#4
  | .addReg x y => encodeXyn 0x8#4 x y 0x4#4
  | .sub x y => encodeXyn 0x8#4 x y 0x5#4
  | .shr x y => encodeXyn 0x8#4 x y 0x6#4
  | .subn x y => encodeXyn 0x8#4 x y 0x7#4
  | .shl x y => encodeXyn 0x8#4 x y 0xE#4
  | .sneReg x y => encodeXyn 0x9#4 x y 0x0#4
  | .ldI nnn => encodeNnn 0xA#4 nnn
  | .jpV0 nnn => encodeNnn 0xB#4 nnn
  | .rnd x kk => encodeXkk 0xC#4 x kk
  | .drw x y n => encodeXyn 0xD#4 x y n
  | .skp x => encodeXkk 0xE#4 x 0x9E#8
  | .sknp x => encodeXkk 0xE#4 x 0xA1#8
  | .ldVxDt x => encodeXkk 0xF#4 x 0x07#8
  | .ldVxK x => encodeXkk 0xF#4 x 0x0A#8
  | .ldDtVx x => encodeXkk 0xF#4 x 0x15#8
  | .ldStVx x => encodeXkk 0xF#4 x 0x18#8
  | .addI x => encodeXkk 0xF#4 x 0x1E#8
  | .ldF x => encodeXkk 0xF#4 x 0x29#8
  | .ldB x => encodeXkk 0xF#4 x 0x33#8
  | .ldMemVx x => encodeXkk 0xF#4 x 0x55#8
  | .ldVxMem x => encodeXkk 0xF#4 x 0x65#8

/-- The mask and the match of an instruction's row (spec/30_encoding.md R123). -/
def Instr.row : Instr → Word × Word
  | .sys _ => (0xF000#16, 0x0000#16)
  | .cls => (0xFFFF#16, 0x00E0#16)
  | .ret => (0xFFFF#16, 0x00EE#16)
  | .jp _ => (0xF000#16, 0x1000#16)
  | .call _ => (0xF000#16, 0x2000#16)
  | .seImm _ _ => (0xF000#16, 0x3000#16)
  | .sneImm _ _ => (0xF000#16, 0x4000#16)
  | .seReg _ _ => (0xF00F#16, 0x5000#16)
  | .ldImm _ _ => (0xF000#16, 0x6000#16)
  | .addImm _ _ => (0xF000#16, 0x7000#16)
  | .ldReg _ _ => (0xF00F#16, 0x8000#16)
  | .orReg _ _ => (0xF00F#16, 0x8001#16)
  | .andReg _ _ => (0xF00F#16, 0x8002#16)
  | .xorReg _ _ => (0xF00F#16, 0x8003#16)
  | .addReg _ _ => (0xF00F#16, 0x8004#16)
  | .sub _ _ => (0xF00F#16, 0x8005#16)
  | .shr _ _ => (0xF00F#16, 0x8006#16)
  | .subn _ _ => (0xF00F#16, 0x8007#16)
  | .shl _ _ => (0xF00F#16, 0x800E#16)
  | .sneReg _ _ => (0xF00F#16, 0x9000#16)
  | .ldI _ => (0xF000#16, 0xA000#16)
  | .jpV0 _ => (0xF000#16, 0xB000#16)
  | .rnd _ _ => (0xF000#16, 0xC000#16)
  | .drw _ _ _ => (0xF000#16, 0xD000#16)
  | .skp _ => (0xF0FF#16, 0xE09E#16)
  | .sknp _ => (0xF0FF#16, 0xE0A1#16)
  | .ldVxDt _ => (0xF0FF#16, 0xF007#16)
  | .ldVxK _ => (0xF0FF#16, 0xF00A#16)
  | .ldDtVx _ => (0xF0FF#16, 0xF015#16)
  | .ldStVx _ => (0xF0FF#16, 0xF018#16)
  | .addI _ => (0xF0FF#16, 0xF01E#16)
  | .ldF _ => (0xF0FF#16, 0xF029#16)
  | .ldB _ => (0xF0FF#16, 0xF033#16)
  | .ldMemVx _ => (0xF0FF#16, 0xF055#16)
  | .ldVxMem _ => (0xF0FF#16, 0xF065#16)

/-- The two bytes of a word as the hardware stores them: the high byte at the lower address
(spec/20_memory.md R82). -/
def bytesOfWord (w : Word) : List Byte := [w.extractLsb' 8 8, w.extractLsb' 0 8]

/-- An instruction's word from the bits of a row of spec/opcode_table.json: the low `nbits` bits of `w`. -/
def tableWord (nbits w : Nat) : Word := BitVec.ofNat 16 (w % 2 ^ nbits)

/-- What the decoder, with the parameters at their defaults, reads from the word of a row of
spec/opcode_table.json laid out in memory order; none where it gives no instruction. -/
def decodeTableWord (nbits w : Nat) : Option Instr :=
  match decodeBytes Config.defaults (bytesOfWord (tableWord nbits w)) with
  | some (.instr i, _) => some i
  | _ => none

end Sys2Proof
end

