-- ==== Sys2Proof/Machine/State.lean ====
section
/-! DEFINITION. The machine's state, as plain data: every piece of spec/10_state.md, the memory of spec/20_memory.md, the
frame output, the launch parameters, and two fields of the model's own (`draws`, `agenda`). -/

namespace Sys2Proof.Machine

/-- The states of the execution loop (spec/10_state.md R49). -/
inductive Mode where
  | run
  | keyWait
  | terminated
  | fault
  deriving DecidableEq, Repr

/-- The values of `FCODE` (spec/60_exceptions.md R361). `none` is no fault. -/
inductive FaultCode where
  | none
  | illegalOpcode
  | stackOverflow
  | stackUnderflow
  | pcOverflow
  | iOverflow
  | fetchOob
  | memOob
  | fontWrite
  | romTooLarge
  deriving DecidableEq, Repr

/-- The number of each code (spec/60_exceptions.md R361). -/
def FaultCode.number : FaultCode → Nibble
  | .none => 0
  | .illegalOpcode => 1
  | .stackOverflow => 2
  | .stackUnderflow => 3
  | .pcOverflow => 4
  | .iOverflow => 5
  | .fetchOob => 6
  | .memOob => 7
  | .fontWrite => 8
  | .romTooLarge => 9

/-- One step of an agent (spec/40_cycle_fsm.md R140): the execution loop, the ticker (R73), the host (R71, R72)
or the frame consumer (R75: takes the oldest frame, or drops the i-th of those waiting). -/
inductive Move where
  | loop
  | tick
  | key (k : Nibble)
  | cancel
  | takeFrame
  | dropFrame (i : Nat)
  deriving DecidableEq, Repr

/-- The framebuffer or a published copy of it: 32 rows of 64 pixels (spec/10_state.md R43). -/
abbrev Frame := Vector Row 32

/-- The sixteen general registers (spec/10_state.md R30). -/
abbrev Regs := Vector Byte 16

/-- The memory `M`: the cells that differ from what an unlisted address reads as (`Memory.unlisted`), by rising
address. -/
abbrev Memory := List Host.Cell

/-- The state of the machine. Reset values are in INVENTORY.md, each with its rule. -/
structure State where
  /-- V0 to VF (spec/10_state.md R30, R31) -/
  v : Regs
  /-- the program counter (spec/10_state.md R33) -/
  pc : Word
  /-- the index register I (spec/10_state.md R37) -/
  i : Word
  /-- the delay timer DT (spec/10_state.md R38) -/
  dt : Byte
  /-- the sound timer ST (spec/10_state.md R38) -/
  st : Byte
  /-- the call stack's entries S[0..15] (spec/10_state.md R40) -/
  stack : Vector Word 16
  /-- the depth of the call stack, 0 to 16 (spec/10_state.md R40) -/
  sp : Fin 17
  /-- the 4096 bytes of memory (spec/20_memory.md R80) -/
  mem : Memory
  /-- the framebuffer FB (spec/10_state.md R43) -/
  fb : Frame
  /-- the key-event queue KQ, oldest first (spec/10_state.md R46) -/
  kq : List Nibble
  /-- CANCEL (spec/10_state.md R48) -/
  cancel : Bool
  /-- MODE (spec/10_state.md R49) -/
  mode : Mode
  /-- KW_REG (spec/10_state.md R50) -/
  kwReg : Nibble
  /-- FCODE (spec/10_state.md R51) -/
  fcode : FaultCode
  /-- frame_out: the frames published and not yet taken, oldest first (spec/10_state.md R75) -/
  frames : List Frame
  /-- the launch parameters, which no step changes (spec/00_scope.md R8; log entry 1) -/
  params : Params
  /-- the model's own: how many free values have been drawn (log entry 7) -/
  draws : Nat
  /-- the model's own: the agents' moves that come before the loop's next step (log entry 6) -/
  agenda : List Move
  deriving DecidableEq, Repr

/-- Why a step has no next state: the execution loop has no step and no other agent is scheduled. A fatal error of
the spec is not among these: it is a next state in `Mode.fault` (spec/60_exceptions.md R362). -/
inductive Fault where
  /-- Raised by `loopStep` in TERMINATED (spec/40_cycle_fsm.md R153): the run ended normally. Safe: the hardware
  has no step either. -/
  | terminated
  /-- Raised by `loopStep` in FAULT (spec/40_cycle_fsm.md R154): the run stopped with this code. Safe: the hardware
  has no step either. -/
  | faulted (code : FaultCode)
  deriving DecidableEq, Repr

/-- Why a word has no meaning. -/
inductive Refusal where
  /-- Raised by an arm of `exec` whose instruction is not modelled yet; no arm raises it. Safe. -/
  | notModelled (mnemonic : String)
  /-- Raised by `runCycle` on the 30 words 0hE0 and 0hEE, only where the launch parameter `P_DECODE_0` is
  `refuse_ambiguous` (spec/30_encoding.md R114). Safe: the spec asks for the refusal. -/
  | ambiguousOperator0 (w : Word)
  deriving DecidableEq, Repr

/-- The machine right after reset with no image loaded (spec/10_state.md R60): values the spec gives, and where it
gives none the values of log entries 2 to 6. `Machine.boot` is reset over every launch argument. -/
def State.reset : State where
  v := Vector.replicate 16 0#8
  pc := 0x200#16
  i := 0#16
  dt := 0#8
  st := 0#8
  stack := Vector.replicate 16 0#16
  sp := 0
  mem := []
  fb := Vector.replicate 32 0#64
  kq := []
  cancel := false
  mode := .run
  kwReg := 0#4
  fcode := .none
  frames := []
  params := Config.defaults
  draws := 0
  agenda := []

/-- The launch arguments of a reset: the image and every value that spec/00_scope.md R8 leaves open. -/
structure Launch where
  rom : List Byte
  fontRom : Vector Byte 80
  params : Params
  v : Regs
  i : Word
  dt : Byte
  st : Byte
  stack : Vector Word 16
  kwReg : Nibble
  fb : Frame
  mem : Memory
  draws : Nat
  agenda : List Move
  deriving DecidableEq, Repr

end Sys2Proof.Machine
end

