-- ==== Sys2Proof/Machine/Ops.lean ====
section
/-! DEFINITION. The named operations over memory, pc, I and the stack, and the one operation that takes a fatal fault. -/

namespace Sys2Proof.Machine

/-- The three outcomes over this machine. -/
abbrev Result := Host.Outcome State Fault Refusal

/-- `P_ADDR_LIMIT` (spec/00_scope.md R8). -/
def State.limit (s : State) : Nat := Config.limitOf s.params.addrLimit

/-- What an address that memory does not list reads as: the font below 0x050 (spec/10_state.md R45) and 0 elsewhere
(DESIGN CHOICE, log entry 4: `RESET_MEM` is open). -/
def Memory.unlisted (a : Nat) : Byte := Config.fontRom.getD a 0#8

/-- The byte at an address. -/
def Memory.read : Memory → Nat → Byte
  | [], a => Memory.unlisted a
  | (b, v) :: m, a => if b = a then v else Memory.read m a

/-- The memory without an entry at an address. -/
def Memory.erase (m : Memory) (a : Nat) : Memory := m.filter fun c => c.1 != a

/-- The memory with one entry put before the first higher address. -/
def Memory.insert : Memory → Nat → Byte → Memory
  | [], a, v => [(a, v)]
  | (b, u) :: m, a, v => if a < b then (a, v) :: (b, u) :: m else (b, u) :: Memory.insert m a v

/-- One byte written, in the canonical form; no byte exists from 0x1000 on (spec/20_memory.md R80). -/
def Memory.write (m : Memory) (a : Nat) (v : Byte) : Memory :=
  if Config.memSize ≤ a then m
  else if v = Memory.unlisted a then Memory.erase m a
  else Memory.insert (Memory.erase m a) a v

/-- The bytes of a list written at `a`, `a + 1`, and so on (spec/20_memory.md R85). -/
def Memory.writeList (m : Memory) (a : Nat) : List Byte → Memory
  | [] => m
  | b :: bs => Memory.writeList (Memory.write m a b) (a + 1) bs

/-- The canonical form: addresses strictly rising, inside the space, and no entry that an unlisted address would
read as. -/
abbrev Memory.wf (m : Memory) : Prop :=
  m.Pairwise (fun c d => c.1 < d.1) ∧ ∀ c ∈ m, c.1 < Config.memSize ∧ c.2 ≠ Memory.unlisted c.1

/-- Whether a data access of `n` bytes at `a` is inside the space (spec/20_memory.md R86). -/
def inRange (a n : Nat) : Bool := n = 0 || a + n ≤ Config.memSize

/-- Whether a range of `n` bytes at `a` includes a byte of the font region (spec/20_memory.md R87). -/
def touchesFont (a n : Nat) : Bool := 0 < n && a < Config.fontSize

/-- `MemRead` (spec/00_scope.md R11, spec/20_memory.md R86): none is MEM_OOB. -/
def memRead (s : State) (a n : Nat) : Option (List Byte) :=
  if inRange a n then some ((List.range n).map fun k => Memory.read s.mem (a + k)) else none

/-- `MemWrite` (spec/00_scope.md R11): MEM_OOB first, then FONT_WRITE (spec/20_memory.md R86, R87), both before any
byte is written. -/
def memWrite (s : State) (a : Nat) (bs : List Byte) : Except FaultCode Memory :=
  if inRange a bs.length then
    if touchesFont a bs.length then .error .fontWrite else .ok (Memory.writeList s.mem a bs)
  else .error .memOob

/-- `Fetch(pc)`: big-endian, and none (FETCH_OOB) from 0xFFF on (spec/20_memory.md R83, R84). -/
def fetch (s : State) : Option Word :=
  if s.pc.toNat + 1 < Config.memSize then
    some (wordOfBytes (Memory.read s.mem s.pc.toNat) (Memory.read s.mem (s.pc.toNat + 1)))
  else none

/-- FAULT ENTRY: nothing of the step commits, so the state is the one before it but for MODE and FCODE
(spec/60_exceptions.md R362). There is no return from a fault (R364). -/
def raiseFault (code : FaultCode) (s : State) : State := { s with mode := .fault, fcode := code }

/-- The outcome of a step that raises a fault in state `s`. -/
def raise (code : FaultCode) (s : State) : Result := .next (raiseFault code s)

/-- `CheckPC` and `CheckI`: none where the value exceeds `P_ADDR_LIMIT` (spec/00_scope.md R11). -/
def checkAddr (s : State) (value : Nat) : Option Word :=
  if value ≤ s.limit then some (BitVec.ofNat 16 value) else none

/-- The end of an instruction: `pc <- CheckPC(target)` in state `t`, which holds the instruction's other writes, or
PC_OVERFLOW with nothing of them committed (spec/42_control_flow.md R210; the check is last, spec/60_exceptions.md
R363). `s` is the state before the instruction. -/
def finishAt (s t : State) (target : Nat) : Result :=
  match checkAddr s target with
  | none => raise .pcOverflow s
  | some pcn => .next { t with pc := pcn }

/-- The end of an instruction that does not redirect `pc`: pc + 2 (spec/42_control_flow.md R210). -/
def finish (s t : State) : Result := finishAt s t (s.pc.toNat + 2)

/-- The end of a skip instruction: pc + 4 when its condition holds, else pc + 2 (spec/42_control_flow.md R210). -/
def skipIf (s t : State) (cond : Bool) : Result := finishAt s t (s.pc.toNat + if cond then 4 else 2)

/-- `Push(v)`: none is STACK_OVERFLOW (spec/10_state.md R40). -/
def push (s : State) (value : Word) : Option State :=
  if h : s.sp.val < 16 then
    some { s with stack := s.stack.set s.sp.val value, sp := ⟨s.sp.val + 1, by omega⟩ }
  else none

/-- `Pop()`: the top entry and the state without it; none is STACK_UNDERFLOW (spec/10_state.md R41). -/
def pop (s : State) : Option (Word × State) :=
  if h : 0 < s.sp.val then
    some (s.stack[s.sp.val - 1]'(by omega), { s with sp := ⟨s.sp.val - 1, by omega⟩ })
  else none

/-- `KeyPoll()`: the head event, if any, and the state without it (spec/45_timers_keys_random.md R330). -/
def keyPoll (s : State) : Option Nibble × State :=
  match s.kq with
  | [] => (none, s)
  | k :: rest => (some k, { s with kq := rest })

/-- `Publish(FB)`: a copy of the framebuffer appended to `frame_out` (spec/40_cycle_fsm.md R156). -/
def publish (s : State) : State := { s with frames := s.frames ++ [s.fb] }

/-- `status_out`: the pair (MODE, FCODE) (spec/10_state.md R76). -/
def State.statusOut (s : State) : Mode × FaultCode := (s.mode, s.fcode)

end Sys2Proof.Machine
end

