-- ==== Sys2Proof/Machine/Operands.lean ====
section
/-! DEFINITION. The operand forms: registers, the block V0 to Vx, extensions, decimal digits and glyph addresses. -/

namespace Sys2Proof.Machine

/-- Read a general register: every index names one (spec/10_state.md R30). -/
def State.getV (s : State) (x : Nibble) : Byte := s.v[x.toNat]'x.isLt

/-- Write a general register (spec/10_state.md R30). -/
def State.setV (s : State) (x : Nibble) (b : Byte) : State := { s with v := s.v.set x.toNat b x.isLt }

/-- The flag register VF, index 15 (spec/10_state.md R31). -/
def vF : Nibble := 0xF#4

/-- The registers V0 to Vx in order (spec/44_index_memory.md R294). -/
def State.regsTo (s : State) (x : Nibble) : List Byte := s.v.toList.take (x.toNat + 1)

/-- The registers from index `k` on overwritten by a list of bytes (spec/44_index_memory.md R295). -/
def setFrom (v : Regs) (k : Nat) : List Byte → Regs
  | [] => v
  | b :: bs => setFrom (v.setIfInBounds k b) (k + 1) bs

/-- V0, V1 and on loaded from a list of bytes (spec/44_index_memory.md R295). -/
def State.loadV (s : State) (bs : List Byte) : State := { s with v := setFrom s.v 0 bs }

/-- An address field zero-extended to 16 bits (spec/30_encoding.md R112). -/
def zext16 (nnn : Addr12) : Word := nnn.setWidth 16

/-- A key event zero-extended to 8 bits (spec/45_timers_keys_random.md R333). -/
def zext8 (k : Nibble) : Byte := k.setWidth 8

/-- The hundreds, tens and ones digits of a byte (spec/44_index_memory.md R293). -/
def digits (b : Byte) : List Byte :=
  [BitVec.ofNat 8 (b.toNat / 100), BitVec.ofNat 8 (b.toNat / 10 % 10), BitVec.ofNat 8 (b.toNat % 10)]

/-- `font_base + Vx * font_glyph_length`, not masked (spec/44_index_memory.md R292). -/
def glyphAddr (b : Byte) : Nat := 0x000 + 5 * b.toNat

/-- Whether the polled event is a key equal to all 8 bits of a register (spec/45_timers_keys_random.md R333). -/
def keyMatches (e : Option Nibble) (b : Byte) : Bool :=
  match e with
  | none => false
  | some k => zext8 k = b

end Sys2Proof.Machine
end

