-- ==== Sys2Proof/Machine/Flags.lean ====
section
/-! DEFINITION. The flag computations: what the instructions of spec/10_state.md R31 write to VF. -/

namespace Sys2Proof.Machine

/-- A flag as a byte: 1 or 0 (spec/10_state.md R31). -/
def flagByte (c : Bool) : Byte := if c then 1#8 else 0#8

/-- Carry of an 8-bit sum (spec/43_register_alu.md R257). -/
def carryOf (a b : Byte) : Byte := flagByte (decide (255 < a.toNat + b.toNat))

/-- No borrow in `a - b` (spec/43_register_alu.md R258, R260). -/
def noBorrow (a b : Byte) : Byte := flagByte (decide (b.toNat ≤ a.toNat))

/-- The bit that a right shift by one shifts out (spec/43_register_alu.md R259). -/
def lsbOf (a : Byte) : Byte := a &&& 1#8

/-- The bit that a left shift by one shifts out (spec/43_register_alu.md R261). -/
def msbOf (a : Byte) : Byte := (a >>> 7) &&& 1#8

/-- The final VF of 8FY6 and 8FYE under one of its three readings (spec/43_register_alu.md R259, R261):
`shift` is the instruction's shift, `f` the bit shifted out. -/
def shiftReadingOf (r : ShiftReading) (shift : Byte → Byte) (a f : Byte) : Byte :=
  match r with
  | .shifted => shift a
  | .shiftedFlag => shift f
  | .flag => f

/-- The writes of SHR and SHL (spec/43_register_alu.md R259, R261): VF, then Vx; where Vx is VF, a draw among the
three readings (log entry 8). -/
def shiftWrites (s : State) (x : Nibble) (shift : Byte → Byte) (f : Byte) : State :=
  if x = vF then
    { s.setV vF (shiftReadingOf (Config.freeReading s.draws) shift (s.getV x) f) with draws := s.draws + 1 }
  else (s.setV vF f).setV x (shift (s.getV x))

end Sys2Proof.Machine
end

