-- ==== Sys2Proof/Machine/ControlFlow.lean ====
section
/-! DEFINITION. Control flow: SYS, RET, JP, CALL, the four register skips and JP V0 (spec/42_control_flow.md). -/

namespace Sys2Proof.Machine

/-- SYS nnn, a no-op (spec/42_control_flow.md R211). -/
def execSys (s : State) : Result := finish s s

/-- RET (spec/42_control_flow.md R212). -/
def execRet (s : State) : Result :=
  match pop s with
  | none => raise .stackUnderflow s
  | some (target, t) => .next { t with pc := target }

/-- JP nnn (spec/42_control_flow.md R213). -/
def execJp (nnn : Addr12) (s : State) : Result := .next { s with pc := zext16 nnn }

/-- CALL nnn: STACK_OVERFLOW is checked before PC_OVERFLOW of the pushed pc + 2 (spec/42_control_flow.md R214). -/
def execCall (nnn : Addr12) (s : State) : Result :=
  if s.sp.val = 16 then raise .stackOverflow s
  else
    match checkAddr s (s.pc.toNat + 2) with
    | none => raise .pcOverflow s
    | some ret =>
      match push s ret with
      | none => raise .stackOverflow s
      | some t => .next { t with pc := zext16 nnn }

/-- SE Vx, kk (spec/42_control_flow.md R215). -/
def execSeImm (x : Nibble) (kk : Byte) (s : State) : Result := skipIf s s (s.getV x = kk)

/-- SNE Vx, kk (spec/42_control_flow.md R216). -/
def execSneImm (x : Nibble) (kk : Byte) (s : State) : Result := skipIf s s (s.getV x ≠ kk)

/-- SE Vx, Vy (spec/42_control_flow.md R217). -/
def execSeReg (x y : Nibble) (s : State) : Result := skipIf s s (s.getV x = s.getV y)

/-- SNE Vx, Vy (spec/42_control_flow.md R218). -/
def execSneReg (x y : Nibble) (s : State) : Result := skipIf s s (s.getV x ≠ s.getV y)

/-- JP V0, nnn (spec/42_control_flow.md R219). -/
def execJpV0 (nnn : Addr12) (s : State) : Result := finishAt s s ((zext16 nnn).toNat + (s.getV 0#4).toNat)

end Sys2Proof.Machine
end

