-- ==== Sys2Proof/Machine/Framebuffer.lean ====
section
/-! DEFINITION. The framebuffer sprite-XOR engine and its two instructions, 00E0 and DXYN (spec/41_framebuffer.md). -/

namespace Sys2Proof.Machine

/-- `clear()`: every pixel 0 (spec/41_framebuffer.md R181). -/
def clearFrame : Frame := Vector.replicate 32 0#64

/-- `FB[r][c]`, for r below 32 and c below 64 (spec/10_state.md R43). -/
def pixel (fb : Frame) (r c : Nat) : Bool := (fb[r % 32]'(Nat.mod_lt r (by decide))).getLsbD (c % 64)

/-- The framebuffer with the pixel at row r, column c inverted (spec/41_framebuffer.md R186). -/
def flipPixel (fb : Frame) (r c : Nat) : Frame :=
  fb.set (r % 32) (fb[r % 32]'(Nat.mod_lt r (by decide)) ^^^ BitVec.twoPow 64 (c % 64)) (Nat.mod_lt r (by decide))

/-- One sprite bit equal to 1 landing at row r, column c: a collision where the pixel was 1, then the XOR
(spec/41_framebuffer.md R183, R185). -/
def plot (acc : Frame × Bool) (r c : Nat) : Frame × Bool :=
  (flipPixel acc.1 r c, acc.2 || pixel acc.1 r c)

/-- Sprite columns `c` on of one row byte, `left` of them: column c is bit 7 - c (spec/41_framebuffer.md R183,
R184). `x` is the column origin and `tr` the target row. -/
def drawCols (x tr : Nat) (b : Byte) : Nat → Nat → Frame × Bool → Frame × Bool
  | 0, _, acc => acc
  | left + 1, c, acc =>
    drawCols x tr b left (c + 1) (if b.getLsbD (7 - c) then plot acc tr ((x + c) % 64) else acc)

/-- Sprite rows `r` on: row r goes to framebuffer row (y + r) mod 32 (spec/41_framebuffer.md R183). -/
def drawRows (x y : Nat) : Nat → List Byte → Frame × Bool → Frame × Bool
  | _, [], acc => acc
  | r, b :: bs, acc => drawRows x y (r + 1) bs (drawCols x ((y + r) % 32) b 8 0 acc)

/-- `draw_sprite(x, y, rows)`: the framebuffer after, and the collision (spec/41_framebuffer.md R183). -/
def drawSprite (fb : Frame) (x y : Nat) (rows : List Byte) : Frame × Bool := drawRows x y 0 rows (fb, false)

/-- CLS (spec/41_framebuffer.md R182). -/
def execCls (s : State) : Result := finish s { s with fb := clearFrame }

/-- The writes of DRW once its sprite bytes are read: the framebuffer, then VF (spec/41_framebuffer.md R188). -/
def drawWrites (s : State) (x y : Nibble) (rows : List Byte) : State :=
  let d := drawSprite s.fb (s.getV x).toNat (s.getV y).toNat rows
  { s with fb := d.1 }.setV vF (flagByte d.2)

/-- DRW Vx, Vy, n (spec/41_framebuffer.md R188). -/
def execDrw (x y n : Nibble) (s : State) : Result :=
  match memRead s s.i.toNat n.toNat with
  | none => raise .memOob s
  | some rows => finish s (drawWrites s x y rows)

end Sys2Proof.Machine
end

