-- ==== Sys2Proof/Machine/IndexMemory.lean ====
section
/-! DEFINITION. The index register and the transfers between registers and memory (spec/44_index_memory.md). -/

namespace Sys2Proof.Machine

/-- An instruction that ends by writing a checked I: I_OVERFLOW before PC_OVERFLOW (spec/60_exceptions.md R363).
`t` holds the instruction's other writes. -/
def finishWithI (s t : State) (value : Nat) : Result :=
  match checkAddr s value with
  | none => raise .iOverflow s
  | some inew => finish s { t with i := inew }

/-- LD I, nnn (spec/44_index_memory.md R290). -/
def execLdI (nnn : Addr12) (s : State) : Result := finish s { s with i := zext16 nnn }

/-- ADD I, Vx (spec/44_index_memory.md R291). -/
def execAddI (x : Nibble) (s : State) : Result := finishWithI s s (s.i.toNat + (s.getV x).toNat)

/-- LD F, Vx (spec/44_index_memory.md R292). -/
def execLdF (x : Nibble) (s : State) : Result := finishWithI s s (glyphAddr (s.getV x))

/-- LD B, Vx: MEM_OOB, FONT_WRITE, then PC_OVERFLOW (spec/44_index_memory.md R293). -/
def execLdB (x : Nibble) (s : State) : Result :=
  match memWrite s s.i.toNat (digits (s.getV x)) with
  | .error code => raise code s
  | .ok m => finish s { s with mem := m }

/-- LD [I], Vx: MEM_OOB, FONT_WRITE, I_OVERFLOW, then PC_OVERFLOW (spec/44_index_memory.md R294). -/
def execLdMemVx (x : Nibble) (s : State) : Result :=
  match memWrite s s.i.toNat (s.regsTo x) with
  | .error code => raise code s
  | .ok m => finishWithI s { s with mem := m } (s.i.toNat + x.toNat + 1)

/-- LD Vx, [I]: MEM_OOB, I_OVERFLOW, then PC_OVERFLOW (spec/44_index_memory.md R295). -/
def execLdVxMem (x : Nibble) (s : State) : Result :=
  match memRead s s.i.toNat (x.toNat + 1) with
  | none => raise .memOob s
  | some bs => finishWithI s (s.loadV bs) (s.i.toNat + x.toNat + 1)

end Sys2Proof.Machine
end

