-- ==== Sys2Proof/Machine/RandomKeysTimers.lean ====
section
/-! DEFINITION. The instructions that reach the random source, the key-event queue and the timers
(spec/45_timers_keys_random.md). -/

namespace Sys2Proof.Machine

/-- RND Vx, kk: a fresh draw, masked (spec/45_timers_keys_random.md R322; the draw is a free value, log entry 7). -/
def execRnd (x : Nibble) (kk : Byte) (s : State) : Result :=
  finish s { s.setV x (Config.freeByte s.draws &&& kk) with draws := s.draws + 1 }

/-- SKP Vx: the head event is removed whether or not it matches (spec/45_timers_keys_random.md R331). -/
def execSkp (x : Nibble) (s : State) : Result :=
  skipIf s (keyPoll s).2 (keyMatches (keyPoll s).1 (s.getV x))

/-- SKNP Vx: an empty queue skips (spec/45_timers_keys_random.md R332). -/
def execSknp (x : Nibble) (s : State) : Result :=
  skipIf s (keyPoll s).2 (!keyMatches (keyPoll s).1 (s.getV x))

/-- LD Vx, DT (spec/45_timers_keys_random.md R335). -/
def execLdVxDt (x : Nibble) (s : State) : Result := finish s (s.setV x s.dt)

/-- LD Vx, K: the oldest event at once, or the wait (spec/45_timers_keys_random.md R334, spec/40_cycle_fsm.md
R149). -/
def execLdVxK (x : Nibble) (s : State) : Result :=
  match s.kq with
  | k :: rest => finish s ({ s with kq := rest }.setV x (zext8 k))
  | [] => .next { s with kwReg := x, mode := .keyWait }

/-- LD DT, Vx (spec/45_timers_keys_random.md R336). -/
def execLdDtVx (x : Nibble) (s : State) : Result := finish s { s with dt := s.getV x }

/-- LD ST, Vx (spec/45_timers_keys_random.md R337). -/
def execLdStVx (x : Nibble) (s : State) : Result := finish s { s with st := s.getV x }

end Sys2Proof.Machine
end

