-- ==== Sys2Proof/Machine/RegisterAlu.lean ====
section
/-! DEFINITION. Register loads and the ALU (spec/43_register_alu.md): 8-bit unsigned arithmetic modulo 256 (R250). -/

namespace Sys2Proof.Machine

/-- LD Vx, kk (spec/43_register_alu.md R251). -/
def execLdImm (x : Nibble) (kk : Byte) (s : State) : Result := finish s (s.setV x kk)

/-- ADD Vx, kk: no flag (spec/43_register_alu.md R252). -/
def execAddImm (x : Nibble) (kk : Byte) (s : State) : Result := finish s (s.setV x (s.getV x + kk))

/-- LD Vx, Vy (spec/43_register_alu.md R253). -/
def execLdReg (x y : Nibble) (s : State) : Result := finish s (s.setV x (s.getV y))

/-- OR Vx, Vy: VF is not written (spec/43_register_alu.md R254). -/
def execOr (x y : Nibble) (s : State) : Result := finish s (s.setV x (s.getV x ||| s.getV y))

/-- AND Vx, Vy: VF is not written (spec/43_register_alu.md R255). -/
def execAnd (x y : Nibble) (s : State) : Result := finish s (s.setV x (s.getV x &&& s.getV y))

/-- XOR Vx, Vy: VF is not written (spec/43_register_alu.md R256). -/
def execXor (x y : Nibble) (s : State) : Result := finish s (s.setV x (s.getV x ^^^ s.getV y))

/-- The writes of ADD, SUB and SUBN: Vx, then VF, both from operands read before (spec/43_register_alu.md R257,
R258, R260). -/
def resultThenFlag (s : State) (x : Nibble) (result flag : Byte) : State := (s.setV x result).setV vF flag

/-- ADD Vx, Vy with carry out (spec/43_register_alu.md R257). -/
def execAddReg (x y : Nibble) (s : State) : Result :=
  finish s (resultThenFlag s x (s.getV x + s.getV y) (carryOf (s.getV x) (s.getV y)))

/-- SUB Vx, Vy (spec/43_register_alu.md R258). -/
def execSub (x y : Nibble) (s : State) : Result :=
  finish s (resultThenFlag s x (s.getV x - s.getV y) (noBorrow (s.getV x) (s.getV y)))

/-- SHR Vx (spec/43_register_alu.md R259). -/
def execShr (x : Nibble) (s : State) : Result := finish s (shiftWrites s x (· >>> 1) (lsbOf (s.getV x)))

/-- SUBN Vx, Vy (spec/43_register_alu.md R260). -/
def execSubn (x y : Nibble) (s : State) : Result :=
  finish s (resultThenFlag s x (s.getV y - s.getV x) (noBorrow (s.getV y) (s.getV x)))

/-- SHL Vx (spec/43_register_alu.md R261). -/
def execShl (x : Nibble) (s : State) : Result := finish s (shiftWrites s x (· <<< 1) (msbOf (s.getV x)))

end Sys2Proof.Machine
end

