-- ==== Sys2Proof/Machine/Cycle.lean ====
section
/-! DEFINITION. The steps of the agents: the loop's RUN cycle and its KEY_WAIT step (spec/40_cycle_fsm.md), the ticker
(spec/45_timers_keys_random.md R341), the host and the frame consumer (spec/60_exceptions.md R374). -/

namespace Sys2Proof.Machine

/-- The end of a cycle: a completed instruction publishes one frame, and a cycle that faulted or entered KEY_WAIT
publishes nothing (spec/40_cycle_fsm.md R147, R157). -/
def publishIfRun : Result → Result
  | .next t => .next (if t.mode = .run then publish t else t)
  | r => r

/-- One RUN cycle (spec/40_cycle_fsm.md R142): cancellation, fetch, decode, execute, publish. -/
def runCycle (s : State) : Result :=
  if s.cancel then .next { s with mode := .terminated }
  else
    match fetch s with
    | none => raise .fetchOob s
    | some w =>
      match decode s.params w with
      | .illegal => raise .illegalOpcode s
      | .ambiguous => .refused (.ambiguousOperator0 w)
      | .instr i => publishIfRun (exec i s)

/-- KEY_WAIT completion with the oldest event `k` (spec/40_cycle_fsm.md R150). -/
def keyCompletion (s : State) (k : Nibble) (rest : List Nibble) : Result :=
  publishIfRun (finish s { { s with kq := rest }.setV s.kwReg (zext8 k) with mode := .run })

/-- KEY_WAIT cancellation (spec/40_cycle_fsm.md R151). -/
def keyCancellation (s : State) : Result := .next { s with mode := .terminated }

/-- The loop's step in KEY_WAIT: what is enabled of completion and cancellation; a free choice where both are (R152,
log entry 9; CANCEL stays 1, so a run meets it once); and no change where neither is (log entry 11). -/
def keyWaitStep (s : State) : Result :=
  match s.kq with
  | [] => if s.cancel then keyCancellation s else .next s
  | k :: rest =>
    if s.cancel then
      match Config.freeWait s.draws with
      | .complete => keyCompletion s k rest
      | .cancel => keyCancellation s
    else keyCompletion s k rest

/-- The execution loop's step (spec/40_cycle_fsm.md R141): none in TERMINATED and in FAULT (R153, R154). -/
def loopStep (s : State) : Result :=
  match s.mode with
  | .run => runCycle s
  | .keyWait => keyWaitStep s
  | .terminated => .fault .terminated
  | .fault => .fault (.faulted s.fcode)

/-- Whether the loop is in a state that has a step (spec/40_cycle_fsm.md R153, R154). -/
def loopAlive (s : State) : Bool := s.mode = .run || s.mode = .keyWait

/-- A timer decremented toward zero, never below (spec/10_state.md R38). -/
def countDown (t : Byte) : Byte := if t = 0#8 then 0#8 else t - 1#8

/-- The ticker is enabled while CANCEL is 0 and MODE is RUN or KEY_WAIT (spec/45_timers_keys_random.md R341,
R342). -/
def tickEnabled (s : State) : Bool := !s.cancel && loopAlive s

/-- One tick: both timers in one step (spec/45_timers_keys_random.md R341). -/
def tick (s : State) : State :=
  if tickEnabled s then { s with dt := countDown s.dt, st := countDown s.st } else s

/-- `key_in`: an event appended at the tail, never refused (spec/10_state.md R71). -/
def pushKey (k : Nibble) (s : State) : State := { s with kq := s.kq ++ [k] }

/-- `cancel_in` (spec/10_state.md R72). -/
def setCancel (s : State) : State := { s with cancel := true }

/-- The consumer takes the oldest waiting frame (spec/10_state.md R75). -/
def takeFrame (s : State) : State := { s with frames := s.frames.tail }

/-- The consumer drops one of the waiting frames (spec/10_state.md R75). -/
def dropFrame (k : Nat) (s : State) : State := { s with frames := s.frames.eraseIdx k }

/-- One agent's step; the loop's is passed over where the loop has none (spec/40_cycle_fsm.md R140). -/
def agentStep (m : Move) (s : State) : Result :=
  match m with
  | .loop => if loopAlive s then loopStep s else .next s
  | .tick => .next (tick s)
  | .key k => .next (pushKey k s)
  | .cancel => .next (setCancel s)
  | .takeFrame => .next (takeFrame s)
  | .dropFrame k => .next (dropFrame k s)

/-- The next step of the system: the move the agenda names first, and the loop's where it names none (log entry
6). -/
def nextStep (s : State) : Result :=
  match s.agenda with
  | [] => loopStep s
  | m :: rest => agentStep m { s with agenda := rest }

/-- Where `withFetchWord` places an instruction: at `pc`, or at the entry point where no word can be fetched at
`pc` (spec/20_memory.md R84). -/
def fetchAddr (s : State) : Nat := if s.pc.toNat + 1 < Config.memSize then s.pc.toNat else Config.entryPoint

/-- The state with a word where the next step fetches, the loop in RUN and about to step (log entry 13). -/
def placeWord (s : State) (w : Word) : State :=
  { s with
    mem := Memory.writeList s.mem (fetchAddr s) (bytesOfWord w)
    pc := BitVec.ofNat 16 (fetchAddr s)
    cancel := false
    mode := .run
    fcode := .none
    agenda := [] }

end Sys2Proof.Machine
end

