-- ==== Sys2Proof/Machine/Step.lean ====
section
/-! DEFINITION. The step, and an instruction placed where it is fetched next. -/

namespace Sys2Proof.Machine

/-- One step of the system (spec/40_cycle_fsm.md R140). -/
def step (s : State) : Host.Outcome State Fault Refusal := nextStep s

/-- The state with the instruction whose table bits are `w` placed where the next step fetches, and that step the
loop's (log entry 13). -/
def State.withFetchWord (s : State) (nbits w : Nat) : State := placeWord s (tableWord nbits w)

end Sys2Proof.Machine
end

