-- ==== Sys2Proof/Machine/Reset.lean ====
section
/-! DEFINITION. Reset over every launch argument, and the ROM load (spec/70_reset_and_hazards.md R390, R391). -/

namespace Sys2Proof.Machine

/-- `RESET_MEM` with `FONT_ROM` at 0x000 and the image from 0x200 upward (spec/70_reset_and_hazards.md R390). -/
def loadMem (l : Launch) (rom : List Byte) : Memory :=
  Memory.writeList (Memory.writeList l.mem 0 l.fontRom.toList) Config.entryPoint rom

/-- The state of spec/10_state.md R60 with an image loaded. -/
def bootWith (l : Launch) (rom : List Byte) : State where
  v := l.v
  pc := BitVec.ofNat 16 Config.entryPoint
  i := l.i
  dt := l.dt
  st := l.st
  stack := l.stack
  sp := 0
  mem := loadMem l rom
  fb := l.fb
  kq := []
  cancel := false
  mode := .run
  kwReg := l.kwReg
  fcode := .none
  frames := []
  params := l.params
  draws := l.draws
  agenda := l.agenda

/-- `reset(ROM)`: an image over 3584 bytes is ROM_TOO_LARGE, with no byte of it loaded
(spec/70_reset_and_hazards.md R390, R391; log entry 14). -/
def boot (l : Launch) : State :=
  if Config.maxRom < l.rom.length then raiseFault .romTooLarge (bootWith l []) else bootWith l l.rom

/-- The launch that gives `State.reset`: no image, and the values of log entries 1 to 7 (log entry 13). -/
def defaultLaunch : Launch where
  rom := []
  fontRom := Vector.ofFn fun k : Fin 80 => Config.fontRom.getD k.val 0#8
  params := Config.defaults
  v := Vector.replicate 16 0#8
  i := 0#16
  dt := 0#8
  st := 0#8
  stack := Vector.replicate 16 0#16
  kwReg := 0#4
  fb := Vector.replicate 32 0#64
  mem := []
  draws := 0
  agenda := []

end Sys2Proof.Machine
end

