-- ==== Sys2Proof/Safety.lean ====
section
/-! DEFINITION. What the claims are stated in: the machine's invariant, and which state each instruction reads and writes
(spec/10_state.md R32, R37, R38, R42, R44). -/

namespace Sys2Proof.Machine

/-- The invariant of the machine: what holds at reset and after every step. -/
structure State.Inv (s : State) : Prop where
  /-- memory keeps its canonical form -/
  mem_wf : Memory.wf s.mem
  /-- pc never exceeds `P_ADDR_LIMIT` (spec/10_state.md R35) -/
  pc_le : s.pc.toNat ≤ s.limit
  /-- I never exceeds `P_ADDR_LIMIT` (spec/10_state.md R37) -/
  i_le : s.i.toNat ≤ s.limit
  /-- every return address on the stack was checked when it was pushed (spec/42_control_flow.md R212) -/
  stack_le : ∀ k : Fin 16, k.val < s.sp.val → (s.stack[k]).toNat ≤ s.limit
  /-- FCODE is NONE while MODE is not FAULT, and a fault's code in FAULT (spec/10_state.md R51) -/
  fcode_iff : s.fcode ≠ .none ↔ s.mode = .fault
  /-- in KEY_WAIT, pc is at the FX0A waited on and KW_REG is its x (spec/10_state.md R50) -/
  key_wait : s.mode = .keyWait → ∃ w, fetch s = some w ∧ decode s.params w = .instr (.ldVxK s.kwReg)

end Sys2Proof.Machine

namespace Sys2Proof

/-- The general registers an instruction reads (spec/10_state.md R32). -/
def Instr.readsV (k : Nibble) : Instr → Bool
  | .seImm x _ | .sneImm x _ | .addImm x _ => k = x
  | .seReg x y | .sneReg x y => k = x || k = y
  | .ldReg _ y => k = y
  | .orReg x y | .andReg x y | .xorReg x y => k = x || k = y
  | .addReg x y | .sub x y | .subn x y => k = x || k = y
  | .shr x _ | .shl x _ => k = x
  | .jpV0 _ => k = 0#4
  | .drw x y _ => k = x || k = y
  | .skp x | .sknp x => k = x
  | .ldDtVx x | .ldStVx x | .addI x | .ldF x | .ldB x => k = x
  | .ldMemVx x => k.toNat ≤ x.toNat
  | .sys _ | .cls | .ret | .jp _ | .call _ | .ldImm _ _ | .ldI _ | .rnd _ _ | .ldVxDt _ | .ldVxK _ | .ldVxMem _ => false

/-- The general registers an instruction writes (spec/10_state.md R32). -/
def Instr.writesV (k : Nibble) : Instr → Bool
  | .ldImm x _ | .addImm x _ | .rnd x _ => k = x
  | .ldReg x _ | .orReg x _ | .andReg x _ | .xorReg x _ => k = x
  | .addReg x _ | .sub x _ | .subn x _ | .shr x _ | .shl x _ => k = x || k = 0xF#4
  | .drw _ _ _ => k = 0xF#4
  | .ldVxDt x | .ldVxK x => k = x
  | .ldVxMem x => k.toNat ≤ x.toNat
  | .sys _ | .cls | .ret | .jp _ | .call _ | .seImm _ _ | .sneImm _ _ | .seReg _ _ | .sneReg _ _ | .ldI _ | .jpV0 _ => false
  | .skp _ | .sknp _ | .ldDtVx _ | .ldStVx _ | .addI _ | .ldF _ | .ldB _ | .ldMemVx _ => false

/-- The instructions that write I: ANNN, FX1E, FX29, FX55 and FX65 (spec/10_state.md R37). -/
def Instr.writesI : Instr → Bool
  | .ldI _ | .addI _ | .ldF _ | .ldMemVx _ | .ldVxMem _ => true
  | _ => false

/-- The instructions that write the framebuffer: 00E0 and DXYN (spec/10_state.md R44). -/
def Instr.writesFb : Instr → Bool
  | .cls | .drw _ _ _ => true
  | _ => false

/-- The instructions that reach the stack: 2NNN and 00EE (spec/10_state.md R42). -/
def Instr.usesStack : Instr → Bool
  | .call _ | .ret => true
  | _ => false

/-- The instructions that remove key events: EX9E, EXA1 and FX0A (spec/10_state.md R46). -/
def Instr.readsKeys : Instr → Bool
  | .skp _ | .sknp _ | .ldVxK _ => true
  | _ => false

/-- The addresses an instruction stores to, from the I it starts with: FX33 and FX55 only (spec/20_memory.md R81). -/
def Instr.storesAt (i : Nat) (a : Nat) : Instr → Bool
  | .ldB _ => i ≤ a && a < i + 3
  | .ldMemVx x => i ≤ a && a < i + x.toNat + 1
  | _ => false

end Sys2Proof
end

