-- ==== Sys2Proof/Certificates/Slice0/Obligations.lean ====
section
/-! DEFINITION. The statements for the provers. Each docstring names the rule of spec/ it formalises. Where a statement gives
an instruction's next state as one record, every field not named in the record is unchanged: that is its frame. -/

open Sys2Proof Sys2Proof.Machine

/-! ## Encoding -/

/-- Decoding the word of a well-formed instruction gives it back, with every operand at every value
(spec/30_encoding.md R123, R124), whatever `P_ADDR_LIMIT` and `P_DECODE_5_9` are. -/
def Obligations.DecodeOfEncodeIsTheInstruction : Prop :=
  ∀ (p : Params) (i : Instr), p.decode0 = .exact → i.wellFormed = true → decode p (encode i) = .instr i

/-- Under the default parameters a word that decodes to an instruction is that instruction's word, and the
instruction is well formed. -/
def Obligations.EncodeOfDecodeIsTheWord : Prop :=
  ∀ (w : Word) (i : Instr), decode Config.defaults w = .instr i → encode i = w ∧ i.wellFormed = true

/-- spec/30_encoding.md R114: operator 0, under both values of `P_DECODE_0`. -/
def Obligations.OperatorZeroIsExactMatch : Prop :=
  (∀ p : Params, decode p 0x00E0#16 = .instr .cls ∧ decode p 0x00EE#16 = .instr .ret) ∧
  (∀ (p : Params) (nnn : Addr12), p.decode0 = .exact → nnn ≠ 0x0E0#12 → nnn ≠ 0x0EE#12 →
    decode p (0x0#4 ++ nnn) = .instr (.sys nnn)) ∧
  (∀ (p : Params) (h : Nibble), p.decode0 = .refuseAmbiguous → h ≠ 0#4 →
    decode p (0x0#4 ++ h ++ 0xE0#8) = .ambiguous ∧ decode p (0x0#4 ++ h ++ 0xEE#8) = .ambiguous) ∧
  (∀ (p : Params) (h : Nibble) (b : Byte), p.decode0 = .refuseAmbiguous → b ≠ 0xE0#8 → b ≠ 0xEE#8 →
    decode p (0x0#4 ++ h ++ b) = .instr (.sys (h ++ b)))

/-- spec/30_encoding.md R115, R116, R117: the second-level dispatch of operators 8, E and F, and the words of them
that are unrecognized. -/
def Obligations.SecondLevelDispatchOfEightEAndF : Prop :=
  (∀ (p : Params) (x y : Nibble),
    decode p (0x8#4 ++ x ++ y ++ 0x0#4) = .instr (.ldReg x y) ∧
    decode p (0x8#4 ++ x ++ y ++ 0x1#4) = .instr (.orReg x y) ∧
    decode p (0x8#4 ++ x ++ y ++ 0x2#4) = .instr (.andReg x y) ∧
    decode p (0x8#4 ++ x ++ y ++ 0x3#4) = .instr (.xorReg x y) ∧
    decode p (0x8#4 ++ x ++ y ++ 0x4#4) = .instr (.addReg x y) ∧
    decode p (0x8#4 ++ x ++ y ++ 0x5#4) = .instr (.sub x y) ∧
    decode p (0x8#4 ++ x ++ y ++ 0x6#4) = .instr (.shr x y) ∧
    decode p (0x8#4 ++ x ++ y ++ 0x7#4) = .instr (.subn x y) ∧
    decode p (0x8#4 ++ x ++ y ++ 0xE#4) = .instr (.shl x y) ∧
    ∀ n : Nibble, n ∈ [0x8#4, 0x9#4, 0xA#4, 0xB#4, 0xC#4, 0xD#4, 0xF#4] →
      decode p (0x8#4 ++ x ++ y ++ n) = .illegal) ∧
  (∀ (p : Params) (x : Nibble),
    decode p (0xE#4 ++ x ++ 0x9E#8) = .instr (.skp x) ∧
    decode p (0xE#4 ++ x ++ 0xA1#8) = .instr (.sknp x) ∧
    ∀ kk : Byte, kk ∉ [0x9E#8, 0xA1#8] → decode p (0xE#4 ++ x ++ kk) = .illegal) ∧
  (∀ (p : Params) (x : Nibble),
    decode p (0xF#4 ++ x ++ 0x07#8) = .instr (.ldVxDt x) ∧
    decode p (0xF#4 ++ x ++ 0x0A#8) = .instr (.ldVxK x) ∧
    decode p (0xF#4 ++ x ++ 0x15#8) = .instr (.ldDtVx x) ∧
    decode p (0xF#4 ++ x ++ 0x18#8) = .instr (.ldStVx x) ∧
    decode p (0xF#4 ++ x ++ 0x1E#8) = .instr (.addI x) ∧
    decode p (0xF#4 ++ x ++ 0x29#8) = .instr (.ldF x) ∧
    decode p (0xF#4 ++ x ++ 0x33#8) = .instr (.ldB x) ∧
    decode p (0xF#4 ++ x ++ 0x55#8) = .instr (.ldMemVx x) ∧
    decode p (0xF#4 ++ x ++ 0x65#8) = .instr (.ldVxMem x) ∧
    ∀ kk : Byte, kk ∉ [0x07#8, 0x0A#8, 0x15#8, 0x18#8, 0x1E#8, 0x29#8, 0x33#8, 0x55#8, 0x65#8] →
      decode p (0xF#4 ++ x ++ kk) = .illegal)

/-- spec/30_encoding.md R118: operators 5 and 9 under both values of `P_DECODE_5_9`. -/
def Obligations.OperatorsFiveAndNineTestTheLowNibble : Prop :=
  (∀ (p : Params) (x y : Nibble),
    decode p (0x5#4 ++ x ++ y ++ 0x0#4) = .instr (.seReg x y) ∧
    decode p (0x9#4 ++ x ++ y ++ 0x0#4) = .instr (.sneReg x y)) ∧
  (∀ (p : Params) (x y n : Nibble), p.decode59 = .strict → n ≠ 0#4 →
    decode p (0x5#4 ++ x ++ y ++ n) = .illegal ∧ decode p (0x9#4 ++ x ++ y ++ n) = .illegal) ∧
  (∀ (p : Params) (x y n : Nibble), p.decode59 = .ignore →
    decode p (0x5#4 ++ x ++ y ++ n) = .instr (.seReg x y) ∧
    decode p (0x9#4 ++ x ++ y ++ n) = .instr (.sneReg x y))

/-- Words of spec/95_test_vectors.md (sections 2.1 and 3) decode to the instructions written beside them there. -/
def Obligations.WordsOfTheTestVectorsDecode : Prop :=
  decodeTableWord 16 0x1234 = some (.jp 0x234#12) ∧ decodeTableWord 16 0x00E0 = some .cls ∧
  decodeTableWord 16 0x00EE = some .ret ∧ decodeTableWord 16 0x0000 = some (.sys 0#12) ∧
  decodeTableWord 16 0x01E0 = some (.sys 0x1E0#12) ∧ decodeTableWord 16 0x5121 = none ∧
  decodeTableWord 16 0x812A = none ∧ decodeTableWord 16 0xE19F = none ∧ decodeTableWord 16 0xF030 = none ∧
  decodeTableWord 16 0x8325 = some (.sub 3#4 2#4) ∧ decodeTableWord 16 0xDAB5 = some (.drw 0xA#4 0xB#4 5#4) ∧
  decodeTableWord 16 0xFC29 = some (.ldF 0xC#4) ∧ decodeTableWord 16 0xE3A1 = some (.sknp 3#4) ∧
  decodeTableWord 16 0xF265 = some (.ldVxMem 2#4) ∧ decodeTableWord 16 0xC10F = some (.rnd 1#4 0x0F#8)

/-! ## Control flow -/

/-- spec/42_control_flow.md R211: SYS is a no-op that only advances pc. -/
def Obligations.SysOnlyAdvancesPc : Prop :=
  ∀ (s : State) (p : Params) (nnn : Addr12),
    (p.decode0 = .exact → nnn ≠ 0x0E0#12 → nnn ≠ 0x0EE#12 → decode p (0x0#4 ++ nnn) = .instr (.sys nnn)) ∧
    (s.pc.toNat + 2 ≤ s.limit → exec (.sys nnn) s = .next { s with pc := s.pc + 2#16 }) ∧
    (s.limit < s.pc.toNat + 2 → exec (.sys nnn) s = .next { s with mode := .fault, fcode := .pcOverflow })

/-- spec/42_control_flow.md R212: RET pops into pc; with the stack empty it is STACK_UNDERFLOW. -/
def Obligations.RetPopsIntoPc : Prop :=
  ∀ (s : State) (p : Params),
    decode p 0x00EE#16 = .instr .ret ∧
    (∀ k : Fin 16, s.sp = k.succ → exec .ret s = .next { s with pc := s.stack[k], sp := k.castSucc }) ∧
    (s.sp = 0 → exec .ret s = .next { s with mode := .fault, fcode := .stackUnderflow })

/-- spec/42_control_flow.md R213: JP writes the zero-extended address to pc and cannot fault. -/
def Obligations.JpWritesPc : Prop :=
  ∀ (s : State) (p : Params) (nnn : Addr12),
    decode p (0x1#4 ++ nnn) = .instr (.jp nnn) ∧
    exec (.jp nnn) s = .next { s with pc := nnn.setWidth 16 }

/-- spec/42_control_flow.md R214: CALL pushes pc + 2 and jumps; STACK_OVERFLOW is checked before PC_OVERFLOW. -/
def Obligations.CallPushesReturnAddress : Prop :=
  ∀ (s : State) (p : Params) (nnn : Addr12),
    decode p (0x2#4 ++ nnn) = .instr (.call nnn) ∧
    (∀ k : Fin 16, s.sp = k.castSucc → s.pc.toNat + 2 ≤ s.limit →
      exec (.call nnn) s =
        .next { s with stack := s.stack.set k (s.pc + 2#16), sp := k.succ, pc := nnn.setWidth 16 }) ∧
    (s.sp = 16 → exec (.call nnn) s = .next { s with mode := .fault, fcode := .stackOverflow }) ∧
    (s.sp ≠ 16 → s.limit < s.pc.toNat + 2 →
      exec (.call nnn) s = .next { s with mode := .fault, fcode := .pcOverflow })

/-- spec/42_control_flow.md R215, R216: SE and SNE with an immediate advance pc by 4 or 2. -/
def Obligations.SkipsOnImmediate : Prop :=
  ∀ (s : State) (p : Params) (x : Nibble) (kk : Byte),
    decode p (0x3#4 ++ x ++ kk) = .instr (.seImm x kk) ∧
    decode p (0x4#4 ++ x ++ kk) = .instr (.sneImm x kk) ∧
    (∀ n : Nat, n = (if s.getV x = kk then 4 else 2) →
      (s.pc.toNat + n ≤ s.limit → exec (.seImm x kk) s = .next { s with pc := s.pc + BitVec.ofNat 16 n }) ∧
      (s.limit < s.pc.toNat + n → exec (.seImm x kk) s = .next { s with mode := .fault, fcode := .pcOverflow })) ∧
    (∀ n : Nat, n = (if s.getV x = kk then 2 else 4) →
      (s.pc.toNat + n ≤ s.limit → exec (.sneImm x kk) s = .next { s with pc := s.pc + BitVec.ofNat 16 n }) ∧
      (s.limit < s.pc.toNat + n → exec (.sneImm x kk) s = .next { s with mode := .fault, fcode := .pcOverflow }))

/-- spec/42_control_flow.md R217, R218: SE and SNE of two registers advance pc by 4 or 2; a word with another low
nibble is unrecognized under `strict`. -/
def Obligations.SkipsOnRegisters : Prop :=
  ∀ (s : State) (p : Params) (x y : Nibble),
    (decode p (0x5#4 ++ x ++ y ++ 0x0#4) = .instr (.seReg x y) ∧
      decode p (0x9#4 ++ x ++ y ++ 0x0#4) = .instr (.sneReg x y)) ∧
    (∀ n : Nibble, n ≠ 0#4 → p.decode59 = .strict →
      decode p (0x5#4 ++ x ++ y ++ n) = .illegal ∧ decode p (0x9#4 ++ x ++ y ++ n) = .illegal) ∧
    (∀ n : Nat, n = (if s.getV x = s.getV y then 4 else 2) →
      (s.pc.toNat + n ≤ s.limit → exec (.seReg x y) s = .next { s with pc := s.pc + BitVec.ofNat 16 n }) ∧
      (s.limit < s.pc.toNat + n → exec (.seReg x y) s = .next { s with mode := .fault, fcode := .pcOverflow })) ∧
    (∀ n : Nat, n = (if s.getV x = s.getV y then 2 else 4) →
      (s.pc.toNat + n ≤ s.limit → exec (.sneReg x y) s = .next { s with pc := s.pc + BitVec.ofNat 16 n }) ∧
      (s.limit < s.pc.toNat + n → exec (.sneReg x y) s = .next { s with mode := .fault, fcode := .pcOverflow }))

/-- spec/42_control_flow.md R219: JP V0 adds V0 to the address; PC_OVERFLOW above the limit. -/
def Obligations.JpV0AddsV0 : Prop :=
  ∀ (s : State) (p : Params) (nnn : Addr12),
    decode p (0xB#4 ++ nnn) = .instr (.jpV0 nnn) ∧
    (nnn.toNat + (s.getV 0#4).toNat ≤ s.limit →
      exec (.jpV0 nnn) s = .next { s with pc := nnn.setWidth 16 + (s.getV 0#4).setWidth 16 }) ∧
    (s.limit < nnn.toNat + (s.getV 0#4).toNat →
      exec (.jpV0 nnn) s = .next { s with mode := .fault, fcode := .pcOverflow })

/-- spec/42_control_flow.md R220: a CALL and, after any code that leaves the stack as it found it (state `u`), a RET
restore pc + 2 and SP. -/
def Obligations.CallThenRetReturns : Prop :=
  ∀ (s t u : State) (nnn : Addr12), s.sp ≠ 16 → s.pc.toNat + 2 ≤ s.limit → exec (.call nnn) s = .next t →
    u.sp = t.sp → (∀ k : Fin 16, k.val < t.sp.val → u.stack[k] = t.stack[k]) →
    exec .ret u = .next { u with pc := s.pc + 2#16, sp := s.sp }

/-! ## Registers and the ALU -/

/-- spec/43_register_alu.md R251, R252: LD Vx,kk and ADD Vx,kk write Vx only; no flag. -/
def Obligations.ImmediateLoadAndAdd : Prop :=
  ∀ (s : State) (p : Params) (x : Nibble) (kk : Byte),
    decode p (0x6#4 ++ x ++ kk) = .instr (.ldImm x kk) ∧
    decode p (0x7#4 ++ x ++ kk) = .instr (.addImm x kk) ∧
    (s.pc.toNat + 2 ≤ s.limit →
      exec (.ldImm x kk) s = .next { s with v := s.v.set x.toNat kk x.isLt, pc := s.pc + 2#16 } ∧
      exec (.addImm x kk) s =
        .next { s with
          v := s.v.set x.toNat (BitVec.ofNat 8 ((s.getV x).toNat + kk.toNat)) x.isLt, pc := s.pc + 2#16 }) ∧
    (s.limit < s.pc.toNat + 2 →
      exec (.ldImm x kk) s = .next { s with mode := .fault, fcode := .pcOverflow } ∧
      exec (.addImm x kk) s = .next { s with mode := .fault, fcode := .pcOverflow })

/-- spec/43_register_alu.md R253, R254, R255, R256: LD Vx,Vy, OR, AND and XOR write Vx only; VF is no flag here. -/
def Obligations.CopyAndLogicWriteVxOnly : Prop :=
  ∀ (s : State) (p : Params) (x y : Nibble),
    (decode p (0x8#4 ++ x ++ y ++ 0x0#4) = .instr (.ldReg x y) ∧
      decode p (0x8#4 ++ x ++ y ++ 0x1#4) = .instr (.orReg x y) ∧
      decode p (0x8#4 ++ x ++ y ++ 0x2#4) = .instr (.andReg x y) ∧
      decode p (0x8#4 ++ x ++ y ++ 0x3#4) = .instr (.xorReg x y)) ∧
    (s.pc.toNat + 2 ≤ s.limit →
      exec (.ldReg x y) s = .next { s with v := s.v.set x.toNat (s.getV y) x.isLt, pc := s.pc + 2#16 } ∧
      exec (.orReg x y) s =
        .next { s with v := s.v.set x.toNat (s.getV x ||| s.getV y) x.isLt, pc := s.pc + 2#16 } ∧
      exec (.andReg x y) s =
        .next { s with v := s.v.set x.toNat (s.getV x &&& s.getV y) x.isLt, pc := s.pc + 2#16 } ∧
      exec (.xorReg x y) s =
        .next { s with v := s.v.set x.toNat (s.getV x ^^^ s.getV y) x.isLt, pc := s.pc + 2#16 }) ∧
    (s.limit < s.pc.toNat + 2 →
      exec (.ldReg x y) s = .next { s with mode := .fault, fcode := .pcOverflow } ∧
      exec (.orReg x y) s = .next { s with mode := .fault, fcode := .pcOverflow } ∧
      exec (.andReg x y) s = .next { s with mode := .fault, fcode := .pcOverflow } ∧
      exec (.xorReg x y) s = .next { s with mode := .fault, fcode := .pcOverflow })

/-- spec/43_register_alu.md R257: ADD writes the sum modulo 256 to Vx, then the carry to VF. -/
def Obligations.AddWritesSumThenCarry : Prop :=
  ∀ (s : State) (p : Params) (x y : Nibble),
    decode p (0x8#4 ++ x ++ y ++ 0x4#4) = .instr (.addReg x y) ∧
    (s.pc.toNat + 2 ≤ s.limit →
      exec (.addReg x y) s =
        .next { s with
          v := (s.v.set x.toNat (BitVec.ofNat 8 ((s.getV x).toNat + (s.getV y).toNat)) x.isLt).set 15
            (if 255 < (s.getV x).toNat + (s.getV y).toNat then 1#8 else 0#8)
          pc := s.pc + 2#16 }) ∧
    (s.limit < s.pc.toNat + 2 →
      exec (.addReg x y) s = .next { s with mode := .fault, fcode := .pcOverflow })

/-- spec/43_register_alu.md R258, R260: SUB and SUBN write the difference modulo 256 to Vx, then "no borrow" to VF. -/
def Obligations.SubAndSubnWriteDifferenceThenNoBorrow : Prop :=
  ∀ (s : State) (p : Params) (x y : Nibble),
    decode p (0x8#4 ++ x ++ y ++ 0x5#4) = .instr (.sub x y) ∧
    decode p (0x8#4 ++ x ++ y ++ 0x7#4) = .instr (.subn x y) ∧
    (s.pc.toNat + 2 ≤ s.limit →
      exec (.sub x y) s =
        .next { s with
          v := (s.v.set x.toNat (BitVec.ofInt 8 ((s.getV x).toNat - (s.getV y).toNat : Int)) x.isLt).set 15
            (if (s.getV y).toNat ≤ (s.getV x).toNat then 1#8 else 0#8)
          pc := s.pc + 2#16 } ∧
      exec (.subn x y) s =
        .next { s with
          v := (s.v.set x.toNat (BitVec.ofInt 8 ((s.getV y).toNat - (s.getV x).toNat : Int)) x.isLt).set 15
            (if (s.getV x).toNat ≤ (s.getV y).toNat then 1#8 else 0#8)
          pc := s.pc + 2#16 }) ∧
    (s.limit < s.pc.toNat + 2 →
      exec (.sub x y) s = .next { s with mode := .fault, fcode := .pcOverflow } ∧
      exec (.subn x y) s = .next { s with mode := .fault, fcode := .pcOverflow })

/-- spec/43_register_alu.md R259: SHR writes bit 0 to VF, then the shifted value to Vx; where Vx is VF, one of three
readings, whichever the free choice is (`d` is the model's count of free values, log entry 7, of which nothing is
claimed). -/
def Obligations.ShrShiftsRightByOne : Prop :=
  ∀ (s : State) (p : Params) (x y : Nibble),
    decode p (0x8#4 ++ x ++ y ++ 0x6#4) = .instr (.shr x y) ∧
    (x ≠ 0xF#4 → s.pc.toNat + 2 ≤ s.limit →
      exec (.shr x y) s =
        .next { s with
          v := (s.v.set 15 (BitVec.ofNat 8 ((s.getV x).toNat % 2))).set x.toNat
            (BitVec.ofNat 8 ((s.getV x).toNat / 2)) x.isLt
          pc := s.pc + 2#16 }) ∧
    (x = 0xF#4 → s.pc.toNat + 2 ≤ s.limit →
      ∃ (b : Byte) (d : Nat), (b = BitVec.ofNat 8 ((s.getV x).toNat / 2) ∨ b = 0#8 ∨ b = BitVec.ofNat 8 ((s.getV x).toNat % 2)) ∧
        exec (.shr x y) s = .next { s with v := s.v.set 15 b, pc := s.pc + 2#16, draws := d }) ∧
    (s.limit < s.pc.toNat + 2 → exec (.shr x y) s = .next { s with mode := .fault, fcode := .pcOverflow })

/-- spec/43_register_alu.md R261: SHL writes bit 7 to VF, then the shifted value to Vx; where Vx is VF, one of three
readings, whichever the free choice is (`d` as in ShrShiftsRightByOne). -/
def Obligations.ShlShiftsLeftByOne : Prop :=
  ∀ (s : State) (p : Params) (x y : Nibble),
    decode p (0x8#4 ++ x ++ y ++ 0xE#4) = .instr (.shl x y) ∧
    (x ≠ 0xF#4 → s.pc.toNat + 2 ≤ s.limit →
      exec (.shl x y) s =
        .next { s with
          v := (s.v.set 15 (BitVec.ofNat 8 ((s.getV x).toNat / 128))).set x.toNat
            (BitVec.ofNat 8 (2 * (s.getV x).toNat)) x.isLt
          pc := s.pc + 2#16 }) ∧
    (x = 0xF#4 → s.pc.toNat + 2 ≤ s.limit →
      ∃ (b : Byte) (d : Nat), (b = BitVec.ofNat 8 (2 * (s.getV x).toNat) ∨ b = BitVec.ofNat 8 (2 * ((s.getV x).toNat / 128)) ∨
          b = BitVec.ofNat 8 ((s.getV x).toNat / 128)) ∧
        exec (.shl x y) s = .next { s with v := s.v.set 15 b, pc := s.pc + 2#16, draws := d }) ∧
    (s.limit < s.pc.toNat + 2 → exec (.shl x y) s = .next { s with mode := .fault, fcode := .pcOverflow })

/-! ## Index register and memory -/

/-- spec/44_index_memory.md R290: LD I,nnn. -/
def Obligations.LdIWritesI : Prop :=
  ∀ (s : State) (p : Params) (nnn : Addr12),
    decode p (0xA#4 ++ nnn) = .instr (.ldI nnn) ∧
    (s.pc.toNat + 2 ≤ s.limit →
      exec (.ldI nnn) s = .next { s with i := nnn.setWidth 16, pc := s.pc + 2#16 }) ∧
    (s.limit < s.pc.toNat + 2 → exec (.ldI nnn) s = .next { s with mode := .fault, fcode := .pcOverflow })

/-- spec/44_index_memory.md R291: ADD I,Vx; I_OVERFLOW comes before PC_OVERFLOW. -/
def Obligations.AddIAddsVx : Prop :=
  ∀ (s : State) (p : Params) (x : Nibble),
    decode p (0xF#4 ++ x ++ 0x1E#8) = .instr (.addI x) ∧
    (s.i.toNat + (s.getV x).toNat ≤ s.limit → s.pc.toNat + 2 ≤ s.limit →
      exec (.addI x) s = .next { s with i := s.i + (s.getV x).setWidth 16, pc := s.pc + 2#16 }) ∧
    (s.limit < s.i.toNat + (s.getV x).toNat →
      exec (.addI x) s = .next { s with mode := .fault, fcode := .iOverflow }) ∧
    (s.i.toNat + (s.getV x).toNat ≤ s.limit → s.limit < s.pc.toNat + 2 →
      exec (.addI x) s = .next { s with mode := .fault, fcode := .pcOverflow })

/-- spec/44_index_memory.md R292: LD F,Vx points I at 5 * Vx, not masked, and never raises I_OVERFLOW. -/
def Obligations.LdFPointsAtGlyph : Prop :=
  ∀ (s : State) (p : Params) (x : Nibble),
    decode p (0xF#4 ++ x ++ 0x29#8) = .instr (.ldF x) ∧
    (s.pc.toNat + 2 ≤ s.limit →
      exec (.ldF x) s = .next { s with i := 5#16 * (s.getV x).setWidth 16, pc := s.pc + 2#16 }) ∧
    (s.limit < s.pc.toNat + 2 → exec (.ldF x) s = .next { s with mode := .fault, fcode := .pcOverflow })

/-- spec/44_index_memory.md R293: LD B,Vx stores the three decimal digits at I, I+1, I+2 and changes no other byte;
MEM_OOB, FONT_WRITE and PC_OVERFLOW in this order. -/
def Obligations.LdBStoresDecimalDigits : Prop :=
  ∀ (s : State) (p : Params) (x : Nibble),
    decode p (0xF#4 ++ x ++ 0x33#8) = .instr (.ldB x) ∧
    (s.i.toNat + 2 ≤ 0xFFF → 0x04F < s.i.toNat → s.pc.toNat + 2 ≤ s.limit →
      ∃ m : Memory, exec (.ldB x) s = .next { s with mem := m, pc := s.pc + 2#16 } ∧
        (Memory.read m s.i.toNat).toNat = (s.getV x).toNat / 100 ∧
        (Memory.read m (s.i.toNat + 1)).toNat = (s.getV x).toNat / 10 % 10 ∧
        (Memory.read m (s.i.toNat + 2)).toNat = (s.getV x).toNat % 10 ∧
        ∀ a : Nat, (a < s.i.toNat ∨ s.i.toNat + 2 < a) → Memory.read m a = Memory.read s.mem a) ∧
    (0xFFF < s.i.toNat + 2 → exec (.ldB x) s = .next { s with mode := .fault, fcode := .memOob }) ∧
    (s.i.toNat ≤ 0x04F → exec (.ldB x) s = .next { s with mode := .fault, fcode := .fontWrite }) ∧
    (s.i.toNat + 2 ≤ 0xFFF → 0x04F < s.i.toNat → s.limit < s.pc.toNat + 2 →
      exec (.ldB x) s = .next { s with mode := .fault, fcode := .pcOverflow })

/-- spec/44_index_memory.md R294: LD [I],Vx stores V0 to Vx at I to I+x, changes no other byte and adds x+1 to I;
MEM_OOB, FONT_WRITE, I_OVERFLOW and PC_OVERFLOW in this order. -/
def Obligations.LdMemVxStoresTheBlock : Prop :=
  ∀ (s : State) (p : Params) (x : Nibble),
    decode p (0xF#4 ++ x ++ 0x55#8) = .instr (.ldMemVx x) ∧
    (s.i.toNat + x.toNat ≤ 0xFFF → 0x04F < s.i.toNat → s.i.toNat + x.toNat + 1 ≤ s.limit →
        s.pc.toNat + 2 ≤ s.limit →
      ∃ m : Memory, exec (.ldMemVx x) s =
          .next { s with mem := m, i := s.i + x.setWidth 16 + 1#16, pc := s.pc + 2#16 } ∧
        (∀ k : Nibble, k.toNat ≤ x.toNat → Memory.read m (s.i.toNat + k.toNat) = s.getV k) ∧
        ∀ a : Nat, (a < s.i.toNat ∨ s.i.toNat + x.toNat < a) → Memory.read m a = Memory.read s.mem a) ∧
    (0xFFF < s.i.toNat + x.toNat → exec (.ldMemVx x) s = .next { s with mode := .fault, fcode := .memOob }) ∧
    (s.i.toNat ≤ 0x04F → exec (.ldMemVx x) s = .next { s with mode := .fault, fcode := .fontWrite }) ∧
    (s.i.toNat + x.toNat ≤ 0xFFF → 0x04F < s.i.toNat → s.limit < s.i.toNat + x.toNat + 1 →
      exec (.ldMemVx x) s = .next { s with mode := .fault, fcode := .iOverflow }) ∧
    (s.i.toNat + x.toNat ≤ 0xFFF → 0x04F < s.i.toNat → s.i.toNat + x.toNat + 1 ≤ s.limit →
        s.limit < s.pc.toNat + 2 →
      exec (.ldMemVx x) s = .next { s with mode := .fault, fcode := .pcOverflow })

/-- spec/44_index_memory.md R295: LD Vx,[I] loads V0 to Vx from I to I+x, leaves the other registers and adds x+1 to
I; MEM_OOB, I_OVERFLOW and PC_OVERFLOW in this order. -/
def Obligations.LdVxMemLoadsTheBlock : Prop :=
  ∀ (s : State) (p : Params) (x : Nibble),
    decode p (0xF#4 ++ x ++ 0x65#8) = .instr (.ldVxMem x) ∧
    (s.i.toNat + x.toNat ≤ 0xFFF → s.i.toNat + x.toNat + 1 ≤ s.limit → s.pc.toNat + 2 ≤ s.limit →
      ∃ v : Regs, exec (.ldVxMem x) s =
          .next { s with v := v, i := s.i + x.setWidth 16 + 1#16, pc := s.pc + 2#16 } ∧
        ∀ k : Fin 16, v[k] =
          if k.val ≤ x.toNat then Memory.read s.mem (s.i.toNat + k.val) else s.v[k]) ∧
    (0xFFF < s.i.toNat + x.toNat → exec (.ldVxMem x) s = .next { s with mode := .fault, fcode := .memOob }) ∧
    (s.i.toNat + x.toNat ≤ 0xFFF → s.limit < s.i.toNat + x.toNat + 1 →
      exec (.ldVxMem x) s = .next { s with mode := .fault, fcode := .iOverflow }) ∧
    (s.i.toNat + x.toNat ≤ 0xFFF → s.i.toNat + x.toNat + 1 ≤ s.limit → s.limit < s.pc.toNat + 2 →
      exec (.ldVxMem x) s = .next { s with mode := .fault, fcode := .pcOverflow })

/-- spec/44_index_memory.md R296: FX55 with x = k at I = a, then FX65 with x = k from I = a again, gives V0 to Vk back
their stored values, and each of the two adds k + 1 to I. `u` is the machine between the two: memory as FX55 left it,
I back at a, the other state whatever it is. -/
def Obligations.StoreThenLoadRestoresRegisters : Prop :=
  ∀ (s t u w : State) (x : Nibble), exec (.ldMemVx x) s = .next t → t.mode ≠ .fault →
    u.mem = t.mem → u.i = s.i → exec (.ldVxMem x) u = .next w → w.mode ≠ .fault →
    (∀ k : Nibble, k.toNat ≤ x.toNat → w.getV k = s.getV k) ∧
      t.i.toNat = s.i.toNat + x.toNat + 1 ∧ w.i.toNat = s.i.toNat + x.toNat + 1

/-- spec/20_memory.md R86, R87: the bounds of a data access, the font check after it, and what a write that passes
both leaves. -/
def Obligations.DataAccessBoundsAndWrites : Prop :=
  (∀ (s : State) (a n : Nat),
    memRead s a n =
      if 0 < n ∧ 0xFFF < a + n - 1 then none else some ((List.range n).map fun k => Memory.read s.mem (a + k))) ∧
  (∀ (s : State) (a : Nat) (bs : List Byte), 0 < bs.length ∧ 0xFFF < a + bs.length - 1 →
    memWrite s a bs = .error .memOob) ∧
  (∀ (s : State) (a : Nat) (bs : List Byte), ¬(0 < bs.length ∧ 0xFFF < a + bs.length - 1) →
    (∃ k, k < bs.length ∧ a + k ≤ 0x04F) → memWrite s a bs = .error .fontWrite) ∧
  (∀ (s : State) (a : Nat) (bs : List Byte), ¬(0 < bs.length ∧ 0xFFF < a + bs.length - 1) →
    ¬(∃ k, k < bs.length ∧ a + k ≤ 0x04F) →
    ∃ m : Memory, memWrite s a bs = .ok m ∧
      (∀ (k : Nat) (h : k < bs.length), Memory.read m (a + k) = bs[k]) ∧
      ∀ b : Nat, (b < a ∨ a + bs.length ≤ b) → Memory.read m b = Memory.read s.mem b)

/-! ## The framebuffer -/

/-- spec/41_framebuffer.md R182: CLS sets every pixel to 0. -/
def Obligations.ClsClearsEveryPixel : Prop :=
  ∀ (s : State) (p : Params),
    decode p 0x00E0#16 = .instr .cls ∧
    (s.pc.toNat + 2 ≤ s.limit →
      ∃ fb : Frame, exec .cls s = .next { s with fb := fb, pc := s.pc + 2#16 } ∧
        ∀ r c : Nat, pixel fb r c = false) ∧
    (s.limit < s.pc.toNat + 2 → exec .cls s = .next { s with mode := .fault, fcode := .pcOverflow })

/-- spec/41_framebuffer.md R188: DRW draws n rows from memory at I at (Vx, Vy), both read before VF is written, and
writes the collision to VF; MEM_OOB, then PC_OVERFLOW. What `drawSprite` does to each pixel is stated by
SpriteRowsInParallel. -/
def Obligations.DrwDrawsTheSpriteAtI : Prop :=
  ∀ (s : State) (p : Params) (x y n : Nibble),
    decode p (0xD#4 ++ x ++ y ++ n) = .instr (.drw x y n) ∧
    (∀ d : Frame × Bool,
      d = drawSprite s.fb (s.getV x).toNat (s.getV y).toNat
        ((List.range n.toNat).map fun k => Memory.read s.mem (s.i.toNat + k)) →
      ¬(0 < n.toNat ∧ 0xFFF < s.i.toNat + n.toNat - 1) → s.pc.toNat + 2 ≤ s.limit →
      exec (.drw x y n) s =
        .next { s with fb := d.1, v := s.v.set 15 (if d.2 then 1#8 else 0#8), pc := s.pc + 2#16 }) ∧
    (0 < n.toNat ∧ 0xFFF < s.i.toNat + n.toNat - 1 →
      exec (.drw x y n) s = .next { s with mode := .fault, fcode := .memOob }) ∧
    (¬(0 < n.toNat ∧ 0xFFF < s.i.toNat + n.toNat - 1) → s.limit < s.pc.toNat + 2 →
      exec (.drw x y n) s = .next { s with mode := .fault, fcode := .pcOverflow })

/-- spec/41_framebuffer.md R189: the bit-by-bit draw equals the row-parallel datapath. The mask of a row byte has bit
(x + c) mod 64 equal to the byte's bit 7 - c: the byte reversed, rotated left by x mod 64. -/
def Obligations.SpriteRowsInParallel : Prop :=
  ∀ (fb : Frame) (x y : Nat) (rows : List Byte) (mask : Byte → Row), rows.length ≤ 15 →
    (∀ b, mask b = (b.reverse.setWidth 64).rotateLeft (x % 64)) →
    (∀ (r : Nat) (h : r < rows.length),
      (drawSprite fb x y rows).1[(y + r) % 32]'(Nat.mod_lt _ (by decide)) =
        fb[(y + r) % 32]'(Nat.mod_lt _ (by decide)) ^^^ mask rows[r]) ∧
    (∀ t : Fin 32, (∀ r, r < rows.length → (y + r) % 32 ≠ t.val) → (drawSprite fb x y rows).1[t] = fb[t]) ∧
    ((drawSprite fb x y rows).2 = true ↔
      ∃ (r : Nat) (h : r < rows.length), fb[(y + r) % 32]'(Nat.mod_lt _ (by decide)) &&& mask rows[r] ≠ 0#64)

/-- spec/41_framebuffer.md R185: a draw collides exactly when a sprite bit equal to 1 lands on a pixel that is 1 (each
pixel is the target of at most one bit, R187, so its value just before that bit is its value before the call), and
exactly when it turned at least one pixel from 1 to 0. -/
def Obligations.CollisionIffSomePixelTurnedOff : Prop :=
  ∀ (fb : Frame) (x y : Nat) (rows : List Byte), rows.length ≤ 15 →
    ((drawSprite fb x y rows).2 = true ↔
      ∃ (r c : Nat) (h : r < rows.length), c < 8 ∧ rows[r].getLsbD (7 - c) = true ∧
        pixel fb ((y + r) % 32) ((x + c) % 64) = true) ∧
    ((drawSprite fb x y rows).2 = true ↔
      ∃ r c : Nat, r < 32 ∧ c < 64 ∧ pixel fb r c = true ∧ pixel (drawSprite fb x y rows).1 r c = false)

/-- spec/41_framebuffer.md R191: a second DXYN with Vx, Vy, I, the sprite bytes and the framebuffer as they were after
the first (state `u`) restores the framebuffer, and collides exactly when the first turned a pixel from 0 to 1. -/
def Obligations.DoubleDrawRestores : Prop :=
  ∀ (s t u w : State) (x y n : Nibble), exec (.drw x y n) s = .next t → t.mode ≠ .fault →
    u.fb = t.fb → u.getV x = s.getV x → u.getV y = s.getV y → u.i = s.i →
    (∀ k : Nat, k < n.toNat → Memory.read u.mem (s.i.toNat + k) = Memory.read s.mem (s.i.toNat + k)) →
    exec (.drw x y n) u = .next w → w.mode ≠ .fault →
    w.fb = s.fb ∧
    (w.getV 0xF#4 = 1#8 ↔
      ∃ r c : Nat, r < 32 ∧ c < 64 ∧ pixel s.fb r c = false ∧ pixel t.fb r c = true)

/-! ## Random, keys and timers -/

/-- CXKK (spec/45_timers_keys_random.md section 1): RND writes a byte of the random source masked by kk. The byte is a
free value (log entry 7): whatever it is, the result is it AND kk; nothing is claimed of the count `d`. -/
def Obligations.RndMasksTheDraw : Prop :=
  ∀ (s : State) (p : Params) (x : Nibble) (kk : Byte),
    decode p (0xC#4 ++ x ++ kk) = .instr (.rnd x kk) ∧
    (s.pc.toNat + 2 ≤ s.limit →
      ∃ (r : Byte) (d : Nat), exec (.rnd x kk) s =
        .next { s with v := s.v.set x.toNat (r &&& kk) x.isLt, pc := s.pc + 2#16, draws := d }) ∧
    (s.limit < s.pc.toNat + 2 → exec (.rnd x kk) s = .next { s with mode := .fault, fcode := .pcOverflow })

/-- spec/45_timers_keys_random.md R331, R332, R333: SKP and SKNP remove the head event, if any, and skip on it being,
or not being, the key that all 8 bits of Vx name; a fault removes nothing. -/
def Obligations.KeySkipsConsumeTheHeadEvent : Prop :=
  ∀ (s : State) (p : Params) (x : Nibble) (hit : Bool),
    (hit = true ↔ ∃ k, s.kq.head? = some k ∧ k.toNat = (s.getV x).toNat) →
    decode p (0xE#4 ++ x ++ 0x9E#8) = .instr (.skp x) ∧
    decode p (0xE#4 ++ x ++ 0xA1#8) = .instr (.sknp x) ∧
    (∀ n : Nat, n = (if hit then 4 else 2) →
      (s.pc.toNat + n ≤ s.limit →
        exec (.skp x) s = .next { s with kq := s.kq.tail, pc := s.pc + BitVec.ofNat 16 n }) ∧
      (s.limit < s.pc.toNat + n → exec (.skp x) s = .next { s with mode := .fault, fcode := .pcOverflow })) ∧
    (∀ n : Nat, n = (if hit then 2 else 4) →
      (s.pc.toNat + n ≤ s.limit →
        exec (.sknp x) s = .next { s with kq := s.kq.tail, pc := s.pc + BitVec.ofNat 16 n }) ∧
      (s.limit < s.pc.toNat + n → exec (.sknp x) s = .next { s with mode := .fault, fcode := .pcOverflow }))

/-- spec/45_timers_keys_random.md R334: FX0A takes the oldest event at once, or enters
KEY_WAIT with pc left at it; PC_OVERFLOW is checked at completion only. -/
def Obligations.LdVxKTakesAKeyOrWaits : Prop :=
  ∀ (s : State) (p : Params) (x : Nibble),
    decode p (0xF#4 ++ x ++ 0x0A#8) = .instr (.ldVxK x) ∧
    (∀ (k : Nibble) (rest : List Nibble), s.kq = k :: rest → s.pc.toNat + 2 ≤ s.limit →
      exec (.ldVxK x) s =
        .next { s with v := s.v.set x.toNat (k.setWidth 8) x.isLt, kq := rest, pc := s.pc + 2#16 }) ∧
    (s.kq ≠ [] → s.limit < s.pc.toNat + 2 →
      exec (.ldVxK x) s = .next { s with mode := .fault, fcode := .pcOverflow }) ∧
    (s.kq = [] → exec (.ldVxK x) s = .next { s with kwReg := x, mode := .keyWait })

/-- spec/45_timers_keys_random.md R335, R336, R337: the timer instructions make one access to one timer. -/
def Obligations.TimerReadsAndWrites : Prop :=
  ∀ (s : State) (p : Params) (x : Nibble),
    (decode p (0xF#4 ++ x ++ 0x07#8) = .instr (.ldVxDt x) ∧
      decode p (0xF#4 ++ x ++ 0x15#8) = .instr (.ldDtVx x) ∧
      decode p (0xF#4 ++ x ++ 0x18#8) = .instr (.ldStVx x)) ∧
    (s.pc.toNat + 2 ≤ s.limit →
      exec (.ldVxDt x) s = .next { s with v := s.v.set x.toNat s.dt x.isLt, pc := s.pc + 2#16 } ∧
      exec (.ldDtVx x) s = .next { s with dt := s.getV x, pc := s.pc + 2#16 } ∧
      exec (.ldStVx x) s = .next { s with st := s.getV x, pc := s.pc + 2#16 }) ∧
    (s.limit < s.pc.toNat + 2 →
      exec (.ldVxDt x) s = .next { s with mode := .fault, fcode := .pcOverflow } ∧
      exec (.ldDtVx x) s = .next { s with mode := .fault, fcode := .pcOverflow } ∧
      exec (.ldStVx x) s = .next { s with mode := .fault, fcode := .pcOverflow })

/-- spec/45_timers_keys_random.md R341, R342: a tick decrements each timer that is above 0 while CANCEL is 0 and MODE is
RUN or KEY_WAIT, and there is no tick otherwise. -/
def Obligations.TickDecrementsBothTimers : Prop :=
  ∀ s : State,
    (s.cancel = false ∧ (s.mode = .run ∨ s.mode = .keyWait) →
      ∃ d t : Byte, d.toNat = s.dt.toNat - 1 ∧ t.toNat = s.st.toNat - 1 ∧ tick s = { s with dt := d, st := t }) ∧
    (s.cancel = true ∨ s.mode = .terminated ∨ s.mode = .fault → tick s = s)

/-- spec/45_timers_keys_random.md section 3: after t ticks the delay timer holds max(0, v - t), and FX07 reads that. -/
def Obligations.FX07ReadsWrittenValueLessTicks : Prop :=
  ∀ (s : State) (t : Nat) (x : Nibble), s.cancel = false → s.mode = .run → s.pc.toNat + 2 ≤ s.limit →
    ∃ u : State, exec (.ldVxDt x) (tick^[t] s) = .next u ∧ (u.getV x).toNat = s.dt.toNat - t

/-! ## Frames of the instructions -/

/-- Every instruction answers a next state from every state: no meaning stops. -/
def Obligations.EveryInstructionAnswers : Prop :=
  ∀ (i : Instr) (s : State), ∃ t, exec i s = .next t

/-- spec/10_state.md R32 (its writes column): every general register but those the rule lists for the instruction
is unchanged. -/
def Obligations.OnlyListedRegistersAreWritten : Prop :=
  ∀ (i : Instr) (s t : State) (k : Nibble), exec i s = .next t → i.writesV k = false → t.getV k = s.getV k

/-- spec/10_state.md R32 (its reads column): registers an instruction does not read do not matter. Two states in RUN that
differ only in such registers are taken to states that agree on everything but the registers, and, where the
instruction completed (MODE is still RUN: no fault and no wait), on every register it writes. -/
def Obligations.RegistersNotReadDoNotMatter : Prop :=
  ∀ (i : Instr) (s t : State) (v : Regs), s.mode = .run → (∀ k : Nibble, i.readsV k = true → v[k.toNat] = s.getV k) →
    exec i s = .next t →
    ∃ u, exec i { s with v := v } = .next u ∧ { u with v := t.v } = t ∧
      (t.mode = .run → ∀ k : Nibble, i.writesV k = true → u.getV k = t.getV k)

/-- spec/20_memory.md R81: an instruction changes no byte of memory but those it stores to: FX33 at I to I+2, FX55 at I
to I+x. For every other instruction every address reads as before. -/
def Obligations.OnlyStoredBytesChange : Prop :=
  ∀ (i : Instr) (s t : State) (a : Nat), exec i s = .next t → i.storesAt s.i.toNat a = false →
    Memory.read t.mem a = Memory.read s.mem a

/-- The frame over the rest of the state (spec/10_state.md R37, R38, R42, R44, R46, R48, R50): I, the timers, the
stack, the framebuffer and the key queue are written only by the instructions those rules name; CANCEL, the published
frames, the launch parameters and the agenda by none; KW_REG by FX0A only. Two clauses are about the model's own
fields: no instruction changes the agenda (log entry 6), and the count of free values changes by CXKK (log entry 7), 8XY6
and 8XYE (log entry 8) only. -/
def Obligations.OtherStateIsWrittenAsListed : Prop :=
  ∀ (i : Instr) (s t : State), exec i s = .next t →
    (i.writesI = false → t.i = s.i) ∧ (i.writesFb = false → t.fb = s.fb) ∧
    (i.usesStack = false → t.stack = s.stack ∧ t.sp = s.sp) ∧ (i.readsKeys = false → t.kq = s.kq) ∧
    ((∀ x, i ≠ .ldDtVx x) → t.dt = s.dt) ∧ ((∀ x, i ≠ .ldStVx x) → t.st = s.st) ∧
    ((∀ x, i ≠ .ldVxK x) → t.kwReg = s.kwReg) ∧
    ((∀ x kk, i ≠ .rnd x kk) → (∀ x y, i ≠ .shr x y) → (∀ x y, i ≠ .shl x y) → t.draws = s.draws) ∧
    t.cancel = s.cancel ∧ t.frames = s.frames ∧ t.params = s.params ∧ t.agenda = s.agenda

/-! ## The cycle, the agents and the faults -/

/-- A step runs the decoded instruction (spec/40_cycle_fsm.md section 2): in RUN with CANCEL 0 and the loop to step,
the step is exec of the decoded instruction, with one frame published where the loop is still in RUN. When the
loop steps is the model's choice (log entry 6): with an empty agenda, or where the agenda's head names it; that head is
then used up and nothing else differs. -/
def Obligations.StepRunsTheDecodedInstruction : Prop :=
  ∀ (s t : State) (w : Word) (i : Instr), s.mode = .run → s.cancel = false → fetch s = some w →
    decode s.params w = .instr i → exec i s = .next t →
    (s.agenda = [] →
      step s = .next (if t.mode = .run then { t with frames := t.frames ++ [t.fb] } else t)) ∧
    (∀ rest, step { s with agenda := .loop :: rest } =
      match exec i { s with agenda := rest } with
      | .next u => .next (if u.mode = .run then { u with frames := u.frames ++ [u.fb] } else u)
      | .fault r => .fault r
      | .refused r => .refused r)

/-- spec/20_memory.md R83, R84: a fetch reads the byte at pc as the high byte and the next as the low byte, and from
0xFFF on there is no fetch and the cycle is FETCH_OOB. -/
def Obligations.FetchIsBigEndianAndBounded : Prop :=
  ∀ s : State,
    (s.pc.toNat < 0xFFF → ∃ w, fetch s = some w ∧
      w.toNat = (Memory.read s.mem s.pc.toNat).toNat * 256 + (Memory.read s.mem (s.pc.toNat + 1)).toNat) ∧
    (0xFFF ≤ s.pc.toNat → fetch s = none ∧ (s.mode = .run → s.cancel = false →
      loopStep s = .next { s with mode := .fault, fcode := .fetchOob }))

/-- spec/40_cycle_fsm.md R143, R145: cancellation comes before the fetch, whatever pc and memory hold; an unrecognized
word is ILLEGAL_OPCODE; each leaves all else as it was. Under `refuse_ambiguous` an ambiguous word is refused
(spec/30_encoding.md R114). -/
def Obligations.CycleStopsBeforeExecute : Prop :=
  ∀ s : State, s.mode = .run →
    (s.cancel = true → loopStep s = .next { s with mode := .terminated }) ∧
    (∀ w, s.cancel = false → fetch s = some w → decode s.params w = .illegal →
      loopStep s = .next { s with mode := .fault, fcode := .illegalOpcode }) ∧
    (∀ w, s.cancel = false → fetch s = some w → decode s.params w = .ambiguous →
      loopStep s = .refused (.ambiguousOperator0 w))

/-- spec/40_cycle_fsm.md R150, R151: in KEY_WAIT the loop completes with the oldest event and publishes, or faults with
nothing committed, or is cancelled; where completion and cancellation are both enabled (R152) it does one of the two,
whichever the free choice of log entry 9 is. -/
def Obligations.KeyWaitCompletesOrCancels : Prop :=
  ∀ (s : State) (k : Nibble) (rest : List Nibble) (done : State), s.mode = .keyWait →
    done = (if s.pc.toNat + 2 ≤ s.limit then
      { s with
        v := s.v.set s.kwReg.toNat (k.setWidth 8) s.kwReg.isLt, pc := s.pc + 2#16, kq := rest, mode := .run
        frames := s.frames ++ [s.fb] }
      else { s with mode := .fault, fcode := .pcOverflow }) →
    (s.cancel = false → s.kq = k :: rest → loopStep s = .next done) ∧
    (s.cancel = true → s.kq = [] → loopStep s = .next { s with mode := .terminated }) ∧
    (s.cancel = true → s.kq = k :: rest →
      loopStep s = .next done ∨ loopStep s = .next { s with mode := .terminated })

/-- spec/40_cycle_fsm.md R153, R154, R155 and spec/45_timers_keys_random.md R342: in TERMINATED and in FAULT the loop has
no step and the ticker none, and no step of any agent leaves the mode or changes anything but the key queue, CANCEL and
the frames, which only grow fewer. That a move of the loop or the ticker is then passed over, the state unchanged, is the
model's choice (log entry 6); the consumer's moves are those of log entry 12. -/
def Obligations.TerminalStatesAreFinal : Prop :=
  ∀ s : State, s.mode = .terminated ∨ s.mode = .fault →
    (∀ t, loopStep s ≠ .next t) ∧ tick s = s ∧
    ∀ m, ∃ kq cancel frames,
      agentStep m s = .next { s with kq := kq, cancel := cancel, frames := frames } ∧ frames.Sublist s.frames

/-- spec/60_exceptions.md R362: a fault taken by the loop commits nothing, publishes nothing, and sets MODE and FCODE;
the loop has no further step, and no step of the system clears the code. -/
def Obligations.FaultsArePrecise : Prop :=
  (∀ s t : State, s.mode = .run ∨ s.mode = .keyWait → loopStep s = .next t → t.mode = .fault →
    ∃ code, code ≠ .none ∧ t = { s with mode := .fault, fcode := code }) ∧
  (∀ s t : State, s.mode = .fault → loopStep s ≠ .next t) ∧
  (∀ s t : State, s.mode = .fault → step s = .next t → t.mode = .fault ∧ t.fcode = s.fcode)

/-- spec/40_cycle_fsm.md R141: the transitions of MODE, each with its condition; no other exists. -/
def Obligations.ModeTransitions : Prop :=
  ∀ s t : State, step s = .next t → t.mode ≠ s.mode →
    (s.mode = .run ∧ s.cancel = true ∧ t.mode = .terminated) ∨
    (s.mode = .run ∧ s.cancel = false ∧ s.kq = [] ∧ t.mode = .keyWait ∧
      ∃ w, fetch s = some w ∧ decode s.params w = .instr (.ldVxK t.kwReg)) ∨
    (s.mode = .run ∧ s.cancel = false ∧ t.mode = .fault) ∨
    (s.mode = .keyWait ∧ s.kq ≠ [] ∧ s.pc.toNat + 2 ≤ s.limit ∧ t.mode = .run) ∨
    (s.mode = .keyWait ∧ s.kq ≠ [] ∧ s.limit < s.pc.toNat + 2 ∧ t.mode = .fault ∧ t.fcode = .pcOverflow) ∨
    (s.mode = .keyWait ∧ s.cancel = true ∧ t.mode = .terminated)

/-- spec/40_cycle_fsm.md R147: a step of the loop publishes exactly one frame, the framebuffer as it is after the step,
where it ends in RUN, and none where it ends elsewhere. -/
def Obligations.OneFramePerCompletedInstruction : Prop :=
  ∀ s t : State, loopStep s = .next t →
    (t.mode = .run → t.frames = s.frames ++ [t.fb]) ∧ (t.mode ≠ .run → t.frames = s.frames)

/-- The agents' steps (spec/40_cycle_fsm.md section 1, spec/10_state.md section 11): a key event goes to the tail of the
queue and CANCEL is set in every mode, nothing else changing. A step is an agent's where the agenda (the model's own, log entry 6) names that agent first, and with
an empty agenda the loop steps; the consumer's two moves (log entry 12) take the oldest frame or drop one. -/
def Obligations.AgendaSchedulesTheAgents : Prop :=
  (∀ s : State, s.agenda = [] → step s = loopStep s) ∧
  ∀ (s : State) (rest : List Move),
    (∀ k, s.agenda = .key k :: rest → step s = .next { s with kq := s.kq ++ [k], agenda := rest }) ∧
    (s.agenda = .cancel :: rest → step s = .next { s with cancel := true, agenda := rest }) ∧
    (s.agenda = .takeFrame :: rest → step s = .next { s with frames := s.frames.drop 1, agenda := rest }) ∧
    (∀ n, s.agenda = .dropFrame n :: rest → step s = .next { s with frames := s.frames.eraseIdx n, agenda := rest }) ∧
    (s.agenda = .tick :: rest → step s = .next (tick { s with agenda := rest })) ∧
    (s.agenda = .loop :: rest → s.mode = .run ∨ s.mode = .keyWait → step s = loopStep { s with agenda := rest })

/-- spec/10_state.md R46, R48: across every step CANCEL is never cleared and is set only by the host; the key queue is
unchanged, or lost its head, or gained the host's event at its tail; the launch parameters never change. -/
def Obligations.CancelStaysAndKeysAreFifo : Prop :=
  ∀ s t : State, step s = .next t →
    (s.cancel = true → t.cancel = true) ∧
    (t.cancel = true → s.cancel = true ∨ s.agenda.head? = some .cancel) ∧
    (t.kq = s.kq ∨ (∃ k, s.kq = k :: t.kq) ∨ ∃ k, t.kq = s.kq ++ [k] ∧ s.agenda.head? = some (.key k)) ∧
    t.params = s.params

/-! ## Invariants -/

/-- The invariant holds after every step from every state that meets it. -/
def Obligations.StepKeepsTheInvariant : Prop :=
  ∀ s t : State, s.Inv → step s = .next t → t.Inv

/-- The reset state meets the invariant. The reset values it rests on where the spec gives none (I, memory) are the
model's, log entries 2 and 4. -/
def Obligations.ResetMeetsTheInvariant : Prop := State.reset.Inv

/-- Every launch whose RESET_MEM is in canonical form and whose RESET_I is within `P_ADDR_LIMIT` (log entry 17) meets
the invariant, also where the image is too large: what pc, I and memory hold then is the model's choice (log entry 14). -/
def Obligations.BootMeetsTheInvariant : Prop :=
  ∀ l : Launch, Memory.wf l.mem → l.i.toNat ≤ Config.limitOf l.params.addrLimit → (boot l).Inv

/-- The font region is never mutated: no step changes a byte of 0x000 to 0x04F (spec/92_eei_decisions.md D3,
spec/20_memory.md section 3). -/
def Obligations.FontIsNeverMutated : Prop :=
  ∀ (s t : State) (a : Nat), step s = .next t → a ≤ 0x04F → Memory.read t.mem a = Memory.read s.mem a

/-- spec/70_reset_and_hazards.md R390, R391: what reset leaves, for every launch; an image of more than 3584 bytes is
ROM_TOO_LARGE, with no byte of it loaded, no cycle and no frame. That memory then reads as after a reset with no image,
the font and `RESET_MEM` included, is the model's choice (log entry 14): R390 returns before any write of memory. -/
def Obligations.ResetLoadsFontAndRom : Prop :=
  ∀ l : Launch,
    (l.rom.length ≤ 3584 →
      (boot l).pc = 0x200#16 ∧ (boot l).sp = 0 ∧ (boot l).kq = [] ∧ (boot l).cancel = false ∧
      (boot l).fcode = .none ∧ (boot l).mode = .run ∧ (boot l).i = l.i ∧ (boot l).v = l.v ∧ (boot l).dt = l.dt ∧
      (boot l).st = l.st ∧ (boot l).fb = l.fb ∧ tickEnabled (boot l) = true ∧
      (∀ k : Fin 80, Memory.read (boot l).mem k.val = l.fontRom[k]) ∧
      (∀ (k : Nat) (h : k < l.rom.length), Memory.read (boot l).mem (0x200 + k) = l.rom[k]) ∧
      (∀ a : Nat, 0x04F < a → (a < 0x200 ∨ 0x200 + l.rom.length ≤ a) →
        Memory.read (boot l).mem a = Memory.read l.mem a)) ∧
    (3584 < l.rom.length →
      (boot l).statusOut = (.fault, .romTooLarge) ∧ (boot l).frames = [] ∧ (∀ t, loopStep (boot l) ≠ .next t) ∧
      ∀ a : Nat, Memory.read (boot l).mem a = Memory.read (boot { l with rom := [] }).mem a)
end

