-- ==== Sys2Proof/Laws/Memory.lean ====
section
/-! SUPPORT. The laws of memory: a read after a write, and the canonical form kept by every operation. -/

namespace Sys2Proof.Machine

theorem read_erase_same (m : Memory) (a : Nat) : Memory.read (Memory.erase m a) a = Memory.unlisted a := by
  induction m with
  | nil => rfl
  | cons c m ih =>
    rcases c with ⟨b, u⟩
    by_cases h : b = a
    · simpa [Memory.erase, h] using ih
    · simpa [Memory.erase, h, Memory.read] using ih

theorem read_erase_other (m : Memory) {a x : Nat} (hx : x ≠ a) :
    Memory.read (Memory.erase m a) x = Memory.read m x := by
  induction m with
  | nil => rfl
  | cons c m ih =>
    rcases c with ⟨b, u⟩
    by_cases h : b = a
    · subst h
      simpa [Memory.erase, Memory.read, Ne.symm hx] using ih
    · simp only [Memory.erase, Memory.read] at ih ⊢
      simp [h, Memory.read, ih]

theorem read_insert_other (m : Memory) {a x : Nat} (v : Byte) (hx : x ≠ a) :
    Memory.read (Memory.insert m a v) x = Memory.read m x := by
  induction m with
  | nil => simp [Memory.insert, Memory.read, Ne.symm hx]
  | cons c m ih =>
    rcases c with ⟨b, u⟩
    simp only [Memory.insert]
    split <;> simp [Memory.read, ih, Ne.symm hx]

theorem read_insert_same (m : Memory) (a : Nat) (v : Byte) (h : ∀ c ∈ m, c.1 ≠ a) :
    Memory.read (Memory.insert m a v) a = v := by
  induction m with
  | nil => simp [Memory.insert, Memory.read]
  | cons c m ih =>
    rcases c with ⟨b, u⟩
    have hb : b ≠ a := h (b, u) (by simp)
    simp only [Memory.insert]
    split
    · simp [Memory.read]
    · simp only [Memory.read, if_neg hb]
      exact ih fun c hc => h c (by simp [hc])

/-- A read of the address just written gives the byte written (spec/20_memory.md R89). -/
theorem read_write_same (m : Memory) {a : Nat} (v : Byte) (ha : a < Config.memSize) :
    Memory.read (Memory.write m a v) a = v := by
  unfold Memory.write
  rw [if_neg (by omega)]
  split
  · next h => rw [read_erase_same, h]
  · exact read_insert_same _ _ _ fun c hc => by simpa using (List.mem_filter.mp hc).2

/-- A write leaves every other address as it was (spec/20_memory.md R89). -/
theorem read_write_other (m : Memory) {a x : Nat} (v : Byte) (hx : x ≠ a) :
    Memory.read (Memory.write m a v) x = Memory.read m x := by
  unfold Memory.write
  split
  · rfl
  · split
    · exact read_erase_other m hx
    · rw [read_insert_other _ _ hx, read_erase_other m hx]

/-- A list of bytes written leaves every address outside its range as it was (spec/20_memory.md R85). -/
theorem read_writeList_outside (bs : List Byte) :
    ∀ (m : Memory) (a x : Nat), (x < a ∨ a + bs.length ≤ x) →
      Memory.read (Memory.writeList m a bs) x = Memory.read m x := by
  induction bs with
  | nil => intros; rfl
  | cons b bs ih =>
    intro m a x hx
    simp only [List.length_cons] at hx
    rw [Memory.writeList, ih _ _ _ (by omega), read_write_other _ _ (by omega)]

/-- Byte k of a list written at `a` is read at `a + k` (spec/20_memory.md R85). -/
theorem read_writeList_inside (bs : List Byte) :
    ∀ (m : Memory) (a k : Nat) (hk : k < bs.length), a + bs.length ≤ Config.memSize →
      Memory.read (Memory.writeList m a bs) (a + k) = bs[k] := by
  induction bs with
  | nil => intro m a k hk; simp at hk
  | cons b bs ih =>
    intro m a k hk hle
    simp only [List.length_cons] at hle hk
    rw [Memory.writeList]
    cases k with
    | zero =>
      rw [read_writeList_outside _ _ _ _ (by omega)]
      exact read_write_same m b (by omega)
    | succ k =>
      have := ih (Memory.write m a b) (a + 1) k (by omega) (by omega)
      rw [show a + (k + 1) = a + 1 + k by omega, this]
      rfl

theorem wf_erase {m : Memory} (a : Nat) (h : Memory.wf m) : Memory.wf (Memory.erase m a) :=
  ⟨h.1.filter _, fun c hc => h.2 c (List.mem_filter.mp hc).1⟩

theorem mem_insert (m : Memory) (a : Nat) (v : Byte) (c : Host.Cell) :
    c ∈ Memory.insert m a v ↔ c = (a, v) ∨ c ∈ m := by
  induction m with
  | nil => simp [Memory.insert]
  | cons d m ih =>
    rcases d with ⟨b, u⟩
    simp only [Memory.insert]
    split
    · simp
    · simp only [List.mem_cons, ih]
      tauto

theorem wf_insert {m : Memory} {a : Nat} {v : Byte} (h : Memory.wf m) (hm : ∀ c ∈ m, c.1 ≠ a)
    (ha : a < Config.memSize) (hv : v ≠ Memory.unlisted a) : Memory.wf (Memory.insert m a v) := by
  refine ⟨?_, fun c hc => ?_⟩
  · obtain ⟨hp, -⟩ := h
    induction m with
    | nil => simp [Memory.insert]
    | cons d m ih =>
      rcases d with ⟨b, u⟩
      obtain ⟨hb, hp⟩ := List.pairwise_cons.mp hp
      simp only [Memory.insert]
      split
      · next hab =>
        refine List.pairwise_cons.mpr ⟨fun c hc => ?_, List.pairwise_cons.mpr ⟨hb, hp⟩⟩
        rcases List.mem_cons.mp hc with rfl | hc
        · exact hab
        · exact Nat.lt_trans hab (hb c hc)
      · next hab =>
        have hne : b ≠ a := hm (b, u) (by simp)
        refine List.pairwise_cons.mpr ⟨fun c hc => ?_, ih (fun c hc => hm c (by simp [hc])) hp⟩
        rcases (mem_insert m a v c).mp hc with rfl | hc
        · show b < a
          omega
        · exact hb c hc
  · rcases (mem_insert m a v c).mp hc with rfl | hc
    · exact ⟨ha, hv⟩
    · exact h.2 c hc

/-- A write keeps the canonical form. -/
theorem wf_write {m : Memory} (a : Nat) (v : Byte) (h : Memory.wf m) : Memory.wf (Memory.write m a v) := by
  unfold Memory.write
  split
  · exact h
  · split
    · exact wf_erase a h
    · next ha hv =>
      exact wf_insert (wf_erase a h) (fun c hc => by simpa using (List.mem_filter.mp hc).2)
        (by omega) hv

/-- A list of writes keeps the canonical form. -/
theorem wf_writeList (bs : List Byte) : ∀ {m : Memory} (a : Nat), Memory.wf m → Memory.wf (Memory.writeList m a bs) := by
  induction bs with
  | nil => intro m a h; exact h
  | cons b bs ih => intro m a h; exact ih (a + 1) (wf_write a b h)

/-- The memory of the reset state lists nothing, which is the canonical form. -/
theorem wf_reset : Memory.wf State.reset.mem := ⟨List.Pairwise.nil, fun _ hc => by simp [State.reset] at hc⟩

end Sys2Proof.Machine
end

