-- ==== Sys2Proof/Laws/State.lean ====
section
/-! SUPPORT. What each named update of the state does to each field. -/

namespace Sys2Proof.Machine

@[simp] theorem raiseFault_v (code : FaultCode) (s : State) : (raiseFault code s).v = s.v := rfl
@[simp] theorem raiseFault_pc (code : FaultCode) (s : State) : (raiseFault code s).pc = s.pc := rfl
@[simp] theorem raiseFault_i (code : FaultCode) (s : State) : (raiseFault code s).i = s.i := rfl
@[simp] theorem raiseFault_dt (code : FaultCode) (s : State) : (raiseFault code s).dt = s.dt := rfl
@[simp] theorem raiseFault_st (code : FaultCode) (s : State) : (raiseFault code s).st = s.st := rfl
@[simp] theorem raiseFault_stack (code : FaultCode) (s : State) : (raiseFault code s).stack = s.stack := rfl
@[simp] theorem raiseFault_sp (code : FaultCode) (s : State) : (raiseFault code s).sp = s.sp := rfl
@[simp] theorem raiseFault_mem (code : FaultCode) (s : State) : (raiseFault code s).mem = s.mem := rfl
@[simp] theorem raiseFault_fb (code : FaultCode) (s : State) : (raiseFault code s).fb = s.fb := rfl
@[simp] theorem raiseFault_kq (code : FaultCode) (s : State) : (raiseFault code s).kq = s.kq := rfl
@[simp] theorem raiseFault_cancel (code : FaultCode) (s : State) : (raiseFault code s).cancel = s.cancel := rfl
@[simp] theorem raiseFault_mode (code : FaultCode) (s : State) : (raiseFault code s).mode = .fault := rfl
@[simp] theorem raiseFault_kwReg (code : FaultCode) (s : State) : (raiseFault code s).kwReg = s.kwReg := rfl
@[simp] theorem raiseFault_fcode (code : FaultCode) (s : State) : (raiseFault code s).fcode = code := rfl
@[simp] theorem raiseFault_frames (code : FaultCode) (s : State) : (raiseFault code s).frames = s.frames := rfl
@[simp] theorem raiseFault_params (code : FaultCode) (s : State) : (raiseFault code s).params = s.params := rfl
@[simp] theorem raiseFault_draws (code : FaultCode) (s : State) : (raiseFault code s).draws = s.draws := rfl
@[simp] theorem raiseFault_agenda (code : FaultCode) (s : State) : (raiseFault code s).agenda = s.agenda := rfl

@[simp] theorem publish_v (s : State) : (publish s).v = s.v := rfl
@[simp] theorem publish_pc (s : State) : (publish s).pc = s.pc := rfl
@[simp] theorem publish_i (s : State) : (publish s).i = s.i := rfl
@[simp] theorem publish_dt (s : State) : (publish s).dt = s.dt := rfl
@[simp] theorem publish_st (s : State) : (publish s).st = s.st := rfl
@[simp] theorem publish_stack (s : State) : (publish s).stack = s.stack := rfl
@[simp] theorem publish_sp (s : State) : (publish s).sp = s.sp := rfl
@[simp] theorem publish_mem (s : State) : (publish s).mem = s.mem := rfl
@[simp] theorem publish_fb (s : State) : (publish s).fb = s.fb := rfl
@[simp] theorem publish_kq (s : State) : (publish s).kq = s.kq := rfl
@[simp] theorem publish_cancel (s : State) : (publish s).cancel = s.cancel := rfl
@[simp] theorem publish_mode (s : State) : (publish s).mode = s.mode := rfl
@[simp] theorem publish_kwReg (s : State) : (publish s).kwReg = s.kwReg := rfl
@[simp] theorem publish_fcode (s : State) : (publish s).fcode = s.fcode := rfl
@[simp] theorem publish_frames (s : State) : (publish s).frames = s.frames ++ [s.fb] := rfl
@[simp] theorem publish_params (s : State) : (publish s).params = s.params := rfl
@[simp] theorem publish_draws (s : State) : (publish s).draws = s.draws := rfl
@[simp] theorem publish_agenda (s : State) : (publish s).agenda = s.agenda := rfl

@[simp] theorem setV_v (s : State) (x : Nibble) (b : Byte) : (s.setV x b).v = s.v.set x.toNat b x.isLt := rfl
@[simp] theorem setV_pc (s : State) (x : Nibble) (b : Byte) : (s.setV x b).pc = s.pc := rfl
@[simp] theorem setV_i (s : State) (x : Nibble) (b : Byte) : (s.setV x b).i = s.i := rfl
@[simp] theorem setV_dt (s : State) (x : Nibble) (b : Byte) : (s.setV x b).dt = s.dt := rfl
@[simp] theorem setV_st (s : State) (x : Nibble) (b : Byte) : (s.setV x b).st = s.st := rfl
@[simp] theorem setV_stack (s : State) (x : Nibble) (b : Byte) : (s.setV x b).stack = s.stack := rfl
@[simp] theorem setV_sp (s : State) (x : Nibble) (b : Byte) : (s.setV x b).sp = s.sp := rfl
@[simp] theorem setV_mem (s : State) (x : Nibble) (b : Byte) : (s.setV x b).mem = s.mem := rfl
@[simp] theorem setV_fb (s : State) (x : Nibble) (b : Byte) : (s.setV x b).fb = s.fb := rfl
@[simp] theorem setV_kq (s : State) (x : Nibble) (b : Byte) : (s.setV x b).kq = s.kq := rfl
@[simp] theorem setV_cancel (s : State) (x : Nibble) (b : Byte) : (s.setV x b).cancel = s.cancel := rfl
@[simp] theorem setV_mode (s : State) (x : Nibble) (b : Byte) : (s.setV x b).mode = s.mode := rfl
@[simp] theorem setV_kwReg (s : State) (x : Nibble) (b : Byte) : (s.setV x b).kwReg = s.kwReg := rfl
@[simp] theorem setV_fcode (s : State) (x : Nibble) (b : Byte) : (s.setV x b).fcode = s.fcode := rfl
@[simp] theorem setV_frames (s : State) (x : Nibble) (b : Byte) : (s.setV x b).frames = s.frames := rfl
@[simp] theorem setV_params (s : State) (x : Nibble) (b : Byte) : (s.setV x b).params = s.params := rfl
@[simp] theorem setV_draws (s : State) (x : Nibble) (b : Byte) : (s.setV x b).draws = s.draws := rfl
@[simp] theorem setV_agenda (s : State) (x : Nibble) (b : Byte) : (s.setV x b).agenda = s.agenda := rfl

@[simp] theorem loadV_v (s : State) (bs : List Byte) : (s.loadV bs).v = setFrom s.v 0 bs := rfl
@[simp] theorem loadV_pc (s : State) (bs : List Byte) : (s.loadV bs).pc = s.pc := rfl
@[simp] theorem loadV_i (s : State) (bs : List Byte) : (s.loadV bs).i = s.i := rfl
@[simp] theorem loadV_dt (s : State) (bs : List Byte) : (s.loadV bs).dt = s.dt := rfl
@[simp] theorem loadV_st (s : State) (bs : List Byte) : (s.loadV bs).st = s.st := rfl
@[simp] theorem loadV_stack (s : State) (bs : List Byte) : (s.loadV bs).stack = s.stack := rfl
@[simp] theorem loadV_sp (s : State) (bs : List Byte) : (s.loadV bs).sp = s.sp := rfl
@[simp] theorem loadV_mem (s : State) (bs : List Byte) : (s.loadV bs).mem = s.mem := rfl
@[simp] theorem loadV_fb (s : State) (bs : List Byte) : (s.loadV bs).fb = s.fb := rfl
@[simp] theorem loadV_kq (s : State) (bs : List Byte) : (s.loadV bs).kq = s.kq := rfl
@[simp] theorem loadV_cancel (s : State) (bs : List Byte) : (s.loadV bs).cancel = s.cancel := rfl
@[simp] theorem loadV_mode (s : State) (bs : List Byte) : (s.loadV bs).mode = s.mode := rfl
@[simp] theorem loadV_kwReg (s : State) (bs : List Byte) : (s.loadV bs).kwReg = s.kwReg := rfl
@[simp] theorem loadV_fcode (s : State) (bs : List Byte) : (s.loadV bs).fcode = s.fcode := rfl
@[simp] theorem loadV_frames (s : State) (bs : List Byte) : (s.loadV bs).frames = s.frames := rfl
@[simp] theorem loadV_params (s : State) (bs : List Byte) : (s.loadV bs).params = s.params := rfl
@[simp] theorem loadV_draws (s : State) (bs : List Byte) : (s.loadV bs).draws = s.draws := rfl
@[simp] theorem loadV_agenda (s : State) (bs : List Byte) : (s.loadV bs).agenda = s.agenda := rfl

@[simp] theorem pushKey_v (k : Nibble) (s : State) : (pushKey k s).v = s.v := rfl
@[simp] theorem pushKey_pc (k : Nibble) (s : State) : (pushKey k s).pc = s.pc := rfl
@[simp] theorem pushKey_i (k : Nibble) (s : State) : (pushKey k s).i = s.i := rfl
@[simp] theorem pushKey_dt (k : Nibble) (s : State) : (pushKey k s).dt = s.dt := rfl
@[simp] theorem pushKey_st (k : Nibble) (s : State) : (pushKey k s).st = s.st := rfl
@[simp] theorem pushKey_stack (k : Nibble) (s : State) : (pushKey k s).stack = s.stack := rfl
@[simp] theorem pushKey_sp (k : Nibble) (s : State) : (pushKey k s).sp = s.sp := rfl
@[simp] theorem pushKey_mem (k : Nibble) (s : State) : (pushKey k s).mem = s.mem := rfl
@[simp] theorem pushKey_fb (k : Nibble) (s : State) : (pushKey k s).fb = s.fb := rfl
@[simp] theorem pushKey_kq (k : Nibble) (s : State) : (pushKey k s).kq = s.kq ++ [k] := rfl
@[simp] theorem pushKey_cancel (k : Nibble) (s : State) : (pushKey k s).cancel = s.cancel := rfl
@[simp] theorem pushKey_mode (k : Nibble) (s : State) : (pushKey k s).mode = s.mode := rfl
@[simp] theorem pushKey_kwReg (k : Nibble) (s : State) : (pushKey k s).kwReg = s.kwReg := rfl
@[simp] theorem pushKey_fcode (k : Nibble) (s : State) : (pushKey k s).fcode = s.fcode := rfl
@[simp] theorem pushKey_frames (k : Nibble) (s : State) : (pushKey k s).frames = s.frames := rfl
@[simp] theorem pushKey_params (k : Nibble) (s : State) : (pushKey k s).params = s.params := rfl
@[simp] theorem pushKey_draws (k : Nibble) (s : State) : (pushKey k s).draws = s.draws := rfl
@[simp] theorem pushKey_agenda (k : Nibble) (s : State) : (pushKey k s).agenda = s.agenda := rfl

@[simp] theorem setCancel_v (s : State) : (setCancel s).v = s.v := rfl
@[simp] theorem setCancel_pc (s : State) : (setCancel s).pc = s.pc := rfl
@[simp] theorem setCancel_i (s : State) : (setCancel s).i = s.i := rfl
@[simp] theorem setCancel_dt (s : State) : (setCancel s).dt = s.dt := rfl
@[simp] theorem setCancel_st (s : State) : (setCancel s).st = s.st := rfl
@[simp] theorem setCancel_stack (s : State) : (setCancel s).stack = s.stack := rfl
@[simp] theorem setCancel_sp (s : State) : (setCancel s).sp = s.sp := rfl
@[simp] theorem setCancel_mem (s : State) : (setCancel s).mem = s.mem := rfl
@[simp] theorem setCancel_fb (s : State) : (setCancel s).fb = s.fb := rfl
@[simp] theorem setCancel_kq (s : State) : (setCancel s).kq = s.kq := rfl
@[simp] theorem setCancel_cancel (s : State) : (setCancel s).cancel = true := rfl
@[simp] theorem setCancel_mode (s : State) : (setCancel s).mode = s.mode := rfl
@[simp] theorem setCancel_kwReg (s : State) : (setCancel s).kwReg = s.kwReg := rfl
@[simp] theorem setCancel_fcode (s : State) : (setCancel s).fcode = s.fcode := rfl
@[simp] theorem setCancel_frames (s : State) : (setCancel s).frames = s.frames := rfl
@[simp] theorem setCancel_params (s : State) : (setCancel s).params = s.params := rfl
@[simp] theorem setCancel_draws (s : State) : (setCancel s).draws = s.draws := rfl
@[simp] theorem setCancel_agenda (s : State) : (setCancel s).agenda = s.agenda := rfl

@[simp] theorem takeFrame_v (s : State) : (takeFrame s).v = s.v := rfl
@[simp] theorem takeFrame_pc (s : State) : (takeFrame s).pc = s.pc := rfl
@[simp] theorem takeFrame_i (s : State) : (takeFrame s).i = s.i := rfl
@[simp] theorem takeFrame_dt (s : State) : (takeFrame s).dt = s.dt := rfl
@[simp] theorem takeFrame_st (s : State) : (takeFrame s).st = s.st := rfl
@[simp] theorem takeFrame_stack (s : State) : (takeFrame s).stack = s.stack := rfl
@[simp] theorem takeFrame_sp (s : State) : (takeFrame s).sp = s.sp := rfl
@[simp] theorem takeFrame_mem (s : State) : (takeFrame s).mem = s.mem := rfl
@[simp] theorem takeFrame_fb (s : State) : (takeFrame s).fb = s.fb := rfl
@[simp] theorem takeFrame_kq (s : State) : (takeFrame s).kq = s.kq := rfl
@[simp] theorem takeFrame_cancel (s : State) : (takeFrame s).cancel = s.cancel := rfl
@[simp] theorem takeFrame_mode (s : State) : (takeFrame s).mode = s.mode := rfl
@[simp] theorem takeFrame_kwReg (s : State) : (takeFrame s).kwReg = s.kwReg := rfl
@[simp] theorem takeFrame_fcode (s : State) : (takeFrame s).fcode = s.fcode := rfl
@[simp] theorem takeFrame_frames (s : State) : (takeFrame s).frames = s.frames.tail := rfl
@[simp] theorem takeFrame_params (s : State) : (takeFrame s).params = s.params := rfl
@[simp] theorem takeFrame_draws (s : State) : (takeFrame s).draws = s.draws := rfl
@[simp] theorem takeFrame_agenda (s : State) : (takeFrame s).agenda = s.agenda := rfl

@[simp] theorem dropFrame_v (k : Nat) (s : State) : (dropFrame k s).v = s.v := rfl
@[simp] theorem dropFrame_pc (k : Nat) (s : State) : (dropFrame k s).pc = s.pc := rfl
@[simp] theorem dropFrame_i (k : Nat) (s : State) : (dropFrame k s).i = s.i := rfl
@[simp] theorem dropFrame_dt (k : Nat) (s : State) : (dropFrame k s).dt = s.dt := rfl
@[simp] theorem dropFrame_st (k : Nat) (s : State) : (dropFrame k s).st = s.st := rfl
@[simp] theorem dropFrame_stack (k : Nat) (s : State) : (dropFrame k s).stack = s.stack := rfl
@[simp] theorem dropFrame_sp (k : Nat) (s : State) : (dropFrame k s).sp = s.sp := rfl
@[simp] theorem dropFrame_mem (k : Nat) (s : State) : (dropFrame k s).mem = s.mem := rfl
@[simp] theorem dropFrame_fb (k : Nat) (s : State) : (dropFrame k s).fb = s.fb := rfl
@[simp] theorem dropFrame_kq (k : Nat) (s : State) : (dropFrame k s).kq = s.kq := rfl
@[simp] theorem dropFrame_cancel (k : Nat) (s : State) : (dropFrame k s).cancel = s.cancel := rfl
@[simp] theorem dropFrame_mode (k : Nat) (s : State) : (dropFrame k s).mode = s.mode := rfl
@[simp] theorem dropFrame_kwReg (k : Nat) (s : State) : (dropFrame k s).kwReg = s.kwReg := rfl
@[simp] theorem dropFrame_fcode (k : Nat) (s : State) : (dropFrame k s).fcode = s.fcode := rfl
@[simp] theorem dropFrame_frames (k : Nat) (s : State) : (dropFrame k s).frames = s.frames.eraseIdx k := rfl
@[simp] theorem dropFrame_params (k : Nat) (s : State) : (dropFrame k s).params = s.params := rfl
@[simp] theorem dropFrame_draws (k : Nat) (s : State) : (dropFrame k s).draws = s.draws := rfl
@[simp] theorem dropFrame_agenda (k : Nat) (s : State) : (dropFrame k s).agenda = s.agenda := rfl

end Sys2Proof.Machine
end

