-- ==== Sys2Proof/Laws/Ops.lean ====
section
/-! SUPPORT. One lemma per shared operation: everything it can answer. -/

namespace Sys2Proof.Machine

/-- `P_ADDR_LIMIT` is at least 0x0FFF and fits in sixteen bits (spec/00_scope.md R8). -/
theorem limit_bounds (s : State) : 0x0FFF ≤ s.limit ∧ s.limit ≤ 0xFFFF := by
  unfold State.limit Config.limitOf
  split <;> omega

theorem checkAddr_ok {s : State} {value : Nat} (h : value ≤ s.limit) :
    checkAddr s value = some (BitVec.ofNat 16 value) := if_pos h

theorem checkAddr_none {s : State} {value : Nat} (h : s.limit < value) : checkAddr s value = none :=
  if_neg (by omega)

/-- A checked address is the value itself, and is at most the limit. -/
theorem checkAddr_cases (s : State) (value : Nat) :
    (s.limit < value ∧ checkAddr s value = none) ∨
      ∃ w, checkAddr s value = some w ∧ w.toNat = value ∧ value ≤ s.limit := by
  by_cases h : value ≤ s.limit
  · right
    have hl := (limit_bounds s).2
    exact ⟨_, checkAddr_ok h, by rw [BitVec.toNat_ofNat]; omega, h⟩
  · exact .inl ⟨by omega, checkAddr_none (by omega)⟩

/-- pc + n, as the 16-bit sum. -/
theorem ofNat_add_toNat (w : Word) (n : Nat) : BitVec.ofNat 16 (w.toNat + n) = w + BitVec.ofNat 16 n := by
  apply BitVec.eq_of_toNat_eq
  simp [BitVec.toNat_add]

theorem finishAt_ok {s : State} (t : State) {target : Nat} (h : target ≤ s.limit) :
    finishAt s t target = .next { t with pc := BitVec.ofNat 16 target } := by
  simp [finishAt, checkAddr_ok h]

theorem finishAt_fault {s : State} (t : State) {target : Nat} (h : s.limit < target) :
    finishAt s t target = raise .pcOverflow s := by
  simp [finishAt, checkAddr_none h]

theorem finish_ok {s : State} (t : State) (h : s.pc.toNat + 2 ≤ s.limit) :
    finish s t = .next { t with pc := s.pc + 2#16 } := by
  rw [finish, finishAt_ok t h, ofNat_add_toNat]

theorem finish_fault {s : State} (t : State) (h : s.limit < s.pc.toNat + 2) :
    finish s t = raise .pcOverflow s := finishAt_fault t h

theorem skipIf_ok {s t : State} {c : Bool} {n : Nat} (hn : n = if c then 4 else 2) (h : s.pc.toNat + n ≤ s.limit) :
    skipIf s t c = .next { t with pc := s.pc + BitVec.ofNat 16 n } := by
  subst hn
  rw [skipIf, finishAt_ok t h, ofNat_add_toNat]

theorem skipIf_fault {s t : State} {c : Bool} {n : Nat} (hn : n = if c then 4 else 2) (h : s.limit < s.pc.toNat + n) :
    skipIf s t c = raise .pcOverflow s := by
  subst hn
  rw [skipIf, finishAt_fault t h]

/-- Everything `finishAt` can answer: PC_OVERFLOW in the state before, or the state with its new pc. -/
theorem finishAt_cases (s t : State) (target : Nat) :
    finishAt s t target = raise .pcOverflow s ∨
      ∃ w : Word, w.toNat = target ∧ target ≤ s.limit ∧ finishAt s t target = .next { t with pc := w } := by
  rcases checkAddr_cases s target with ⟨h, -⟩ | ⟨w, hw, hn, hl⟩
  · exact .inl (finishAt_fault t h)
  · exact .inr ⟨w, hn, hl, by simp [finishAt, hw]⟩

/-- Everything `finishWithI` can answer: I_OVERFLOW, PC_OVERFLOW, or the state with its new I and pc. -/
theorem finishWithI_cases (s t : State) (value : Nat) :
    (s.limit < value ∧ finishWithI s t value = raise .iOverflow s) ∨
      (value ≤ s.limit ∧ finishWithI s t value = finish s { t with i := BitVec.ofNat 16 value }) := by
  by_cases h : value ≤ s.limit
  · exact .inr ⟨h, by simp [finishWithI, checkAddr_ok h]⟩
  · exact .inl ⟨by omega, by simp [finishWithI, checkAddr_none (Nat.lt_of_not_le h)]⟩

/-- Everything `memRead` can answer (spec/20_memory.md R86). -/
theorem memRead_cases (s : State) (a n : Nat) :
    (0 < n ∧ Config.memSize < a + n ∧ memRead s a n = none) ∨
      ((n = 0 ∨ a + n ≤ Config.memSize) ∧
        memRead s a n = some ((List.range n).map fun k => Memory.read s.mem (a + k))) := by
  by_cases h : n = 0 ∨ a + n ≤ Config.memSize
  · exact .inr ⟨h, by simp [memRead, inRange, h]⟩
  · refine .inl ⟨by omega, by omega, ?_⟩
    simp [memRead, inRange, h]

/-- Everything `memWrite` can answer (spec/20_memory.md R86, R87). -/
theorem memWrite_cases (s : State) (a : Nat) (bs : List Byte) :
    (0 < bs.length ∧ Config.memSize < a + bs.length ∧ memWrite s a bs = .error .memOob) ∨
      ((bs.length = 0 ∨ a + bs.length ≤ Config.memSize) ∧ 0 < bs.length ∧ a < Config.fontSize ∧
        memWrite s a bs = .error .fontWrite) ∨
      ((bs.length = 0 ∨ a + bs.length ≤ Config.memSize) ∧ (bs.length = 0 ∨ Config.fontSize ≤ a) ∧
        memWrite s a bs = .ok (Memory.writeList s.mem a bs)) := by
  by_cases h : bs.length = 0 ∨ a + bs.length ≤ Config.memSize
  · have hr : inRange a bs.length = true := by simpa [inRange] using h
    by_cases hf : 0 < bs.length ∧ a < Config.fontSize
    · have ht : touchesFont a bs.length = true := by simpa [touchesFont] using hf
      exact .inr (.inl ⟨h, hf.1, hf.2, by simp [memWrite, hr, ht]⟩)
    · have ht : touchesFont a bs.length = false := by
        simp only [touchesFont, Bool.and_eq_false_iff, decide_eq_false_iff_not]; omega
      exact .inr (.inr ⟨h, by omega, by simp [memWrite, hr, ht]⟩)
  · have hr : inRange a bs.length = false := by
      simp only [inRange, Bool.or_eq_false_iff, decide_eq_false_iff_not]; omega
    exact .inl ⟨by omega, by omega, by simp [memWrite, hr]⟩

theorem memRead_ok {s : State} {a n : Nat} (h : n = 0 ∨ a + n ≤ Config.memSize) :
    memRead s a n = some ((List.range n).map fun k => Memory.read s.mem (a + k)) := by
  rcases memRead_cases s a n with ⟨_, _, _⟩ | ⟨_, e⟩
  · omega
  · exact e

theorem memRead_oob {s : State} {a n : Nat} (h : 0 < n) (h2 : Config.memSize < a + n) : memRead s a n = none := by
  rcases memRead_cases s a n with ⟨_, _, e⟩ | ⟨_, _⟩
  · exact e
  · omega

theorem memWrite_oob {s : State} {a : Nat} {bs : List Byte} (h : 0 < bs.length) (h2 : Config.memSize < a + bs.length) :
    memWrite s a bs = .error .memOob := by
  rcases memWrite_cases s a bs with ⟨_, _, e⟩ | ⟨_, _⟩ | ⟨_, _⟩
  · exact e
  all_goals omega

theorem memWrite_font {s : State} {a : Nat} {bs : List Byte} (h : 0 < bs.length) (h2 : a + bs.length ≤ Config.memSize)
    (h3 : a < Config.fontSize) : memWrite s a bs = .error .fontWrite := by
  rcases memWrite_cases s a bs with ⟨_, _, _⟩ | ⟨_, _, _, e⟩ | ⟨_, _, _⟩
  · omega
  · exact e
  · omega

theorem memWrite_ok {s : State} {a : Nat} {bs : List Byte} (h : bs.length = 0 ∨ a + bs.length ≤ Config.memSize)
    (h2 : Config.fontSize ≤ a) : memWrite s a bs = .ok (Memory.writeList s.mem a bs) := by
  rcases memWrite_cases s a bs with ⟨_, _, _⟩ | ⟨_, _, _, _⟩ | ⟨_, _, e⟩
  · omega
  · omega
  · exact e

/-- Everything `keyPoll` can answer: the head, if any, and the state with the rest (spec/45_timers_keys_random.md
R330). -/
theorem keyPoll_eq (s : State) : keyPoll s = (s.kq.head?, { s with kq := s.kq.tail }) := by
  rcases h : s.kq with _ | ⟨k, rest⟩
  · simp only [keyPoll, h, List.head?_nil, List.tail_nil]
    rw [← h]
  · simp only [keyPoll, h, List.head?_cons, List.tail_cons]

/-- Everything `push` can answer (spec/10_state.md R40). -/
theorem push_cases (s : State) (value : Word) :
    (s.sp = 16 ∧ push s value = none) ∨
      ∃ k : Fin 16, s.sp = k.castSucc ∧ push s value = some { s with stack := s.stack.set k value, sp := k.succ } := by
  by_cases h : s.sp.val < 16
  · exact .inr ⟨⟨s.sp.val, h⟩, Fin.ext rfl, by simp only [push, dif_pos h]; rfl⟩
  · exact .inl ⟨Fin.ext (show s.sp.val = 16 by omega), by simp only [push, dif_neg h]⟩

/-- Everything `pop` can answer (spec/10_state.md R41). -/
theorem pop_cases (s : State) :
    (s.sp = 0 ∧ pop s = none) ∨
      ∃ k : Fin 16, s.sp = k.succ ∧ pop s = some (s.stack[k], { s with sp := k.castSucc }) := by
  by_cases h : 0 < s.sp.val
  · exact .inr ⟨⟨s.sp.val - 1, by omega⟩, Fin.ext (show s.sp.val = s.sp.val - 1 + 1 by omega),
      by simp only [pop, dif_pos h]; rfl⟩
  · exact .inl ⟨Fin.ext (show s.sp.val = 0 by omega), by simp only [pop, dif_neg h]⟩

/-- Everything `fetch` can answer (spec/20_memory.md R83, R84). -/
theorem fetch_cases (s : State) :
    (0xFFF ≤ s.pc.toNat ∧ fetch s = none) ∨
      (s.pc.toNat < 0xFFF ∧ fetch s =
        some (wordOfBytes (Memory.read s.mem s.pc.toNat) (Memory.read s.mem (s.pc.toNat + 1)))) := by
  by_cases h : s.pc.toNat < 0xFFF
  · exact .inr ⟨h, if_pos (by simp only [Config.memSize]; omega)⟩
  · exact .inl ⟨by omega, if_neg (by simp only [Config.memSize]; omega)⟩

/-- The end of a cycle answers a next state only from one, published where the loop is still in RUN. -/
theorem publishIfRun_next {r : Result} {t : State} (h : publishIfRun r = .next t) :
    ∃ u, r = .next u ∧ t = if u.mode = .run then publish u else u := by
  cases r with
  | next u => exact ⟨u, rfl, by simpa [publishIfRun] using h.symm⟩
  | fault _ => simp [publishIfRun] at h
  | refused _ => simp [publishIfRun] at h

end Sys2Proof.Machine
end

