-- ==== Sys2Proof/Laws/Cycle.lean ====
section
/-! SUPPORT. What a step of the loop and a step of the system can do, said once. -/

namespace Sys2Proof.Machine

/-- The state a KEY_WAIT completion leaves where pc + 2 is within the limit (spec/40_cycle_fsm.md R150). -/
def keyDone (s : State) (k : Nibble) (rest : List Nibble) : State :=
  publish { { s with kq := rest }.setV s.kwReg (zext8 k) with pc := s.pc + 2#16, mode := .run }

theorem keyCompletion_ok {s : State} {k : Nibble} {rest : List Nibble} (h : s.pc.toNat + 2 ≤ s.limit) :
    keyCompletion s k rest = .next (keyDone s k rest) := by
  rw [keyCompletion, finish_ok _ h]
  rfl

theorem keyCompletion_fault {s : State} {k : Nibble} {rest : List Nibble} (h : s.limit < s.pc.toNat + 2) :
    keyCompletion s k rest = raise .pcOverflow s := by
  rw [keyCompletion, finish_fault _ h]
  rfl

/-- Everything a next state of a RUN cycle can be (spec/40_cycle_fsm.md R142). -/
theorem runCycle_next {s t : State} (h : runCycle s = .next t) :
    (s.cancel = true ∧ t = { s with mode := .terminated }) ∨
    (s.cancel = false ∧ ((t = raiseFault .fetchOob s ∨ t = raiseFault .illegalOpcode s) ∨
      ∃ w i u, fetch s = some w ∧ decode s.params w = .instr i ∧ exec i s = .next u ∧
        t = if u.mode = .run then publish u else u)) := by
  unfold runCycle at h
  split at h
  · next hc =>
    cases h
    exact .inl ⟨hc, rfl⟩
  · next hc =>
    refine .inr ⟨by simpa using hc, ?_⟩
    split at h
    · cases h
      exact .inl (.inl rfl)
    · next w hf =>
      split at h
      · cases h
        exact .inl (.inr rfl)
      · cases h
      · next i hd =>
        obtain ⟨u, hu, ht⟩ := publishIfRun_next h
        exact .inr ⟨w, i, u, hf, hd, hu, ht⟩

/-- Everything a next state of the loop in KEY_WAIT can be (spec/40_cycle_fsm.md R150, R151, R152). -/
theorem keyWaitStep_next {s t : State} (h : keyWaitStep s = .next t) :
    (s.cancel = true ∧ t = { s with mode := .terminated }) ∨
    (s.cancel = false ∧ s.kq = [] ∧ t = s) ∨
    ∃ k rest, s.kq = k :: rest ∧
      ((s.limit < s.pc.toNat + 2 ∧ t = raiseFault .pcOverflow s) ∨
        (s.pc.toNat + 2 ≤ s.limit ∧ t = keyDone s k rest)) := by
  have done : ∀ k rest, keyCompletion s k rest = .next t →
      (s.limit < s.pc.toNat + 2 ∧ t = raiseFault .pcOverflow s) ∨
        (s.pc.toNat + 2 ≤ s.limit ∧ t = keyDone s k rest) := by
    intro k rest h
    by_cases hp : s.pc.toNat + 2 ≤ s.limit
    · rw [keyCompletion_ok hp] at h
      cases h
      exact .inr ⟨hp, rfl⟩
    · rw [keyCompletion_fault (by omega)] at h
      cases h
      exact .inl ⟨by omega, rfl⟩
  unfold keyWaitStep at h
  split at h
  · next hk =>
    split at h
    · next hc =>
      cases h
      exact .inl ⟨hc, rfl⟩
    · next hc =>
      cases h
      exact .inr (.inl ⟨by simpa using hc, hk, rfl⟩)
  · next k rest hk =>
    split at h
    · next hc =>
      split at h
      · exact .inr (.inr ⟨k, rest, hk, done k rest h⟩)
      · cases h
        exact .inl ⟨hc, rfl⟩
    · exact .inr (.inr ⟨k, rest, hk, done k rest h⟩)

/-- The loop has a step in RUN and in KEY_WAIT only (spec/40_cycle_fsm.md R153, R154). -/
theorem loopStep_next {s t : State} (h : loopStep s = .next t) :
    (s.mode = .run ∧ runCycle s = .next t) ∨ (s.mode = .keyWait ∧ keyWaitStep s = .next t) := by
  unfold loopStep at h
  split at h
  · next hm => exact .inl ⟨hm, h⟩
  · next hm => exact .inr ⟨hm, h⟩
  · cases h
  · cases h

/-- The ticker's step changes the two timers or nothing (spec/45_timers_keys_random.md R341). -/
theorem tick_cases (s : State) :
    tick s = s ∨ tick s = { s with dt := countDown s.dt, st := countDown s.st } := by
  unfold tick
  split
  · exact .inr rfl
  · exact .inl rfl

/-- A timer counts down to 0 and stays there (spec/10_state.md R38). -/
theorem countDown_toNat (b : Byte) : (countDown b).toNat = b.toNat - 1 := by
  unfold countDown
  split
  · next h => rw [h]; rfl
  · next h =>
    have hb := b.isLt
    have hz : b.toNat ≠ 0 := fun e => h (BitVec.eq_of_toNat_eq e)
    rw [BitVec.toNat_sub]
    simp only [BitVec.toNat_ofNat]
    omega

/-- Everything a next state of the system can be: the loop's step, or the move the agenda names first, taken from the
state with that move used up (spec/40_cycle_fsm.md R140). -/
theorem nextStep_next {s t : State} (h : nextStep s = .next t) :
    (s.agenda = [] ∧ loopStep s = .next t) ∨
      ∃ m rest, s.agenda = m :: rest ∧ agentStep m { s with agenda := rest } = .next t := by
  unfold nextStep at h
  split at h
  · next ha => exact .inl ⟨ha, h⟩
  · next m rest ha => exact .inr ⟨m, rest, ha, h⟩

end Sys2Proof.Machine
end

