-- ==== Sys2Proof/Laws/Encoding.lean ====
section
/-! SUPPORT. The fields and the bits of the words the encoder builds (spec/30_encoding.md R111). -/

namespace Sys2Proof

theorem encodeNnn_bit (op : Nibble) (nnn : Addr12) (k : Nat) :
    (encodeNnn op nnn).getLsbD k = if k < 12 then nnn.getLsbD k else op.getLsbD (k - 12) := by
  have h := BitVec.getLsbD_append (x := op) (y := nnn) (i := k)
  simpa [encodeNnn] using h

theorem encodeXkk_bit (op x : Nibble) (kk : Byte) (k : Nat) :
    (encodeXkk op x kk).getLsbD k =
      if k < 8 then kk.getLsbD k else if k < 12 then x.getLsbD (k - 8) else op.getLsbD (k - 12) := by
  have h := BitVec.getLsbD_append (x := op ++ x) (y := kk) (i := k)
  have h2 := BitVec.getLsbD_append (x := op) (y := x) (i := k - 8)
  rw [show encodeXkk op x kk = (op ++ x ++ kk : BitVec (4 + 4 + 8)) from rfl, h, h2]
  split
  · rfl
  · by_cases h12 : k < 12
    · rw [if_pos h12, if_pos (by omega)]
    · rw [if_neg h12, if_neg (by omega), show k - 8 - 4 = k - 12 by omega]

/-- The word of two registers and a nibble is that of one register and the byte they make. -/
theorem encodeXyn_eq (op x y n : Nibble) : encodeXyn op x y n = encodeXkk op x (y ++ n) := by
  apply BitVec.eq_of_toNat_eq
  have h1 := BitVec.toNat_append (op ++ x ++ y) n
  have h2 := BitVec.toNat_append (op ++ x) y
  have h3 := BitVec.toNat_append (op ++ x) (y ++ n)
  have h4 := BitVec.toNat_append y n
  rw [show encodeXyn op x y n = (op ++ x ++ y ++ n : BitVec (4 + 4 + 4 + 4)) from rfl,
    show encodeXkk op x (y ++ n) = (op ++ x ++ (y ++ n) : BitVec (4 + 4 + (4 + 4))) from rfl, h1, h2, h3, h4]
  simp only [Nat.shiftLeft_or_distrib, ← Nat.shiftLeft_add, Nat.or_assoc]

theorem encodeXyn_bit (op x y n : Nibble) (k : Nat) :
    (encodeXyn op x y n).getLsbD k =
      if k < 4 then n.getLsbD k else if k < 8 then y.getLsbD (k - 4)
      else if k < 12 then x.getLsbD (k - 8) else op.getLsbD (k - 12) := by
  have h := BitVec.getLsbD_append (x := y) (y := n) (i := k)
  rw [encodeXyn_eq, encodeXkk_bit]
  by_cases h8 : k < 8
  · rw [if_pos h8, show ((y ++ n : BitVec (4 + 4))).getLsbD k = _ from h]
    by_cases h4 : k < 4
    · rw [if_pos h4, if_pos h4]
    · rw [if_neg h4, if_neg h4, if_pos h8]
  · rw [if_neg h8, if_neg (show ¬k < 4 by omega), if_neg h8]

@[simp] theorem fieldOp_encodeNnn (op : Nibble) (nnn : Addr12) : fieldOp (encodeNnn op nnn) = op := by
  ext k hk
  simp [fieldOp, ← BitVec.getLsbD_eq_getElem, encodeNnn_bit, hk]

@[simp] theorem fieldNnn_encodeNnn (op : Nibble) (nnn : Addr12) : fieldNnn (encodeNnn op nnn) = nnn := by
  ext k hk
  simp [fieldNnn, ← BitVec.getLsbD_eq_getElem, encodeNnn_bit, hk]

@[simp] theorem fieldOp_encodeXkk (op x : Nibble) (kk : Byte) : fieldOp (encodeXkk op x kk) = op := by
  ext k hk
  simp [fieldOp, ← BitVec.getLsbD_eq_getElem, encodeXkk_bit, hk]
  omega

@[simp] theorem fieldX_encodeXkk (op x : Nibble) (kk : Byte) : fieldX (encodeXkk op x kk) = x := by
  ext k hk
  simp [fieldX, ← BitVec.getLsbD_eq_getElem, encodeXkk_bit, hk]
  omega

@[simp] theorem fieldKk_encodeXkk (op x : Nibble) (kk : Byte) : fieldKk (encodeXkk op x kk) = kk := by
  ext k hk
  simp [fieldKk, ← BitVec.getLsbD_eq_getElem, encodeXkk_bit, hk]

@[simp] theorem fieldOp_encodeXyn (op x y n : Nibble) : fieldOp (encodeXyn op x y n) = op := by
  rw [encodeXyn_eq, fieldOp_encodeXkk]

@[simp] theorem fieldX_encodeXyn (op x y n : Nibble) : fieldX (encodeXyn op x y n) = x := by
  rw [encodeXyn_eq, fieldX_encodeXkk]

@[simp] theorem fieldY_encodeXyn (op x y n : Nibble) : fieldY (encodeXyn op x y n) = y := by
  ext k hk
  simp [fieldY, ← BitVec.getLsbD_eq_getElem, encodeXyn_bit, hk]
  omega

@[simp] theorem fieldN_encodeXyn (op x y n : Nibble) : fieldN (encodeXyn op x y n) = n := by
  ext k hk
  simp [fieldN, ← BitVec.getLsbD_eq_getElem, encodeXyn_bit, hk]

/-- A word is its operator and its address field (spec/30_encoding.md R111). -/
theorem encodeNnn_fields (w : Word) : encodeNnn (fieldOp w) (fieldNnn w) = w := by
  refine BitVec.eq_of_getLsbD_eq fun k hk => ?_
  rw [encodeNnn_bit]
  split
  · simp [fieldNnn, *]
  · simp only [fieldOp, BitVec.getLsbD_extractLsb']
    rw [show 12 + (k - 12) = k by omega, decide_eq_true (show k - 12 < 4 by omega), Bool.true_and]

/-- A word is its operator, its x field and its byte (spec/30_encoding.md R111). -/
theorem encodeXkk_fields (w : Word) : encodeXkk (fieldOp w) (fieldX w) (fieldKk w) = w := by
  refine BitVec.eq_of_getLsbD_eq fun k hk => ?_
  rw [encodeXkk_bit]
  split
  · simp [fieldKk, *]
  split
  · simp only [fieldX, BitVec.getLsbD_extractLsb']
    rw [show 8 + (k - 8) = k by omega, decide_eq_true (show k - 8 < 4 by omega), Bool.true_and]
  · simp only [fieldOp, BitVec.getLsbD_extractLsb']
    rw [show 12 + (k - 12) = k by omega, decide_eq_true (show k - 12 < 4 by omega), Bool.true_and]

/-- A word is its operator, its two register fields and its nibble (spec/30_encoding.md R111). -/
theorem encodeXyn_fields (w : Word) : encodeXyn (fieldOp w) (fieldX w) (fieldY w) (fieldN w) = w := by
  refine BitVec.eq_of_getLsbD_eq fun k hk => ?_
  rw [encodeXyn_bit]
  split
  · simp [fieldN, *]
  split
  · simp only [fieldY, BitVec.getLsbD_extractLsb']
    rw [show 4 + (k - 4) = k by omega, decide_eq_true (show k - 4 < 4 by omega), Bool.true_and]
  split
  · simp only [fieldX, BitVec.getLsbD_extractLsb']
    rw [show 8 + (k - 8) = k by omega, decide_eq_true (show k - 8 < 4 by omega), Bool.true_and]
  · simp only [fieldOp, BitVec.getLsbD_extractLsb']
    rw [show 12 + (k - 12) = k by omega, decide_eq_true (show k - 12 < 4 by omega), Bool.true_and]

/-- The two bytes of a word, as fetched, make the word again (spec/20_memory.md R83). -/
theorem wordOfBytes_bytesOfWord (w : Word) : wordOfBytes (w.extractLsb' 8 8) (w.extractLsb' 0 8) = w := by
  have h := BitVec.toNat_append (w.extractLsb' 8 8) (w.extractLsb' 0 8)
  apply BitVec.eq_of_toNat_eq
  rw [show wordOfBytes (w.extractLsb' 8 8) (w.extractLsb' 0 8) =
    (w.extractLsb' 8 8 ++ w.extractLsb' 0 8 : BitVec (8 + 8)) from rfl, h, ← Nat.shiftLeft_add_eq_or_of_lt (BitVec.isLt _)]
  have := w.isLt
  simp only [BitVec.extractLsb'_toNat, Nat.shiftLeft_eq, Nat.shiftRight_eq_div_pow]
  omega

/-- `decodeTableWord` is the decoder on the row's word. -/
theorem decodeTableWord_eq (nbits w : Nat) :
    decodeTableWord nbits w =
      match decode Config.defaults (tableWord nbits w) with
      | .instr i => some i
      | _ => none := by
  simp only [decodeTableWord, decodeBytes, bytesOfWord, wordOfBytes_bytesOfWord]
  cases decode Config.defaults (tableWord nbits w) <;> rfl

end Sys2Proof
end

