-- ==== Sys2Proof/Laws/Registers.lean ====
section
/-! SUPPORT. The general registers: reads after writes, the block V0 to Vx, and the pixels of the framebuffer. -/

namespace Sys2Proof.Machine

@[simp] theorem getV_setV_same (s : State) (x : Nibble) (b : Byte) : (s.setV x b).getV x = b := by
  simp [State.getV, State.setV]

theorem getV_setV_other (s : State) {x k : Nibble} (b : Byte) (h : k ≠ x) : (s.setV x b).getV k = s.getV k := by
  have : x.toNat ≠ k.toNat := fun e => h (BitVec.eq_of_toNat_eq e.symm)
  simp [State.getV, State.setV, Vector.getElem_set_ne, this]

/-- Register `j` after a block of bytes is loaded from index `k` on. -/
theorem setFrom_get (bs : List Byte) :
    ∀ (v : Regs) (k j : Nat) (hj : j < 16), (setFrom v k bs)[j] =
      if h : k ≤ j ∧ j < k + bs.length then bs[j - k]'(by omega) else v[j] := by
  induction bs with
  | nil => intro v k j hj; simp [setFrom]
  | cons b bs ih =>
    intro v k j hj
    rw [setFrom, ih]
    by_cases h1 : k + 1 ≤ j ∧ j < k + 1 + bs.length
    · rw [dif_pos h1, dif_pos (by simp only [List.length_cons]; omega)]
      simp only [show j - k = (j - (k + 1)) + 1 by omega, List.getElem_cons_succ]
    · rw [dif_neg h1]
      by_cases h2 : j = k
      · subst h2
        simp
      · rw [dif_neg (by simp only [List.length_cons]; omega)]
        simp [Ne.symm h2]

theorem regsTo_length (s : State) (x : Nibble) : (s.regsTo x).length = x.toNat + 1 := by
  have := x.isLt
  simp [State.regsTo]
  omega

/-- Byte k of the block is Vk (spec/44_index_memory.md R294). -/
theorem regsTo_get (s : State) (x k : Nibble) (h : k.toNat < (s.regsTo x).length) :
    (s.regsTo x)[k.toNat] = s.getV k := by
  simp [State.regsTo, State.getV]

/-- SHR and SHL with Vx other than VF: VF, then Vx (spec/43_register_alu.md R259, R261). -/
theorem shiftWrites_other (s : State) {x : Nibble} (shift : Byte → Byte) (f : Byte) (h : x ≠ vF) :
    shiftWrites s x shift f = (s.setV vF f).setV x (shift (s.getV x)) := if_neg h

/-- SHR and SHL with Vx being VF: one of the three readings (spec/43_register_alu.md R259, R261). -/
theorem shiftWrites_vF (s : State) (shift : Byte → Byte) (f : Byte) :
    shiftWrites s vF shift f =
      { s.setV vF (shiftReadingOf (Config.freeReading s.draws) shift (s.getV vF) f) with draws := s.draws + 1 } :=
  if_pos rfl

/-- SHR and SHL write general registers and the count of free values only. -/
theorem shiftWrites_frame (s : State) (x : Nibble) (shift : Byte → Byte) (f : Byte) :
    ∃ (v : Regs) (d : Nat), shiftWrites s x shift f = { s with v := v, draws := d } := by
  unfold shiftWrites
  split
  · exact ⟨_, _, rfl⟩
  · exact ⟨_, s.draws, rfl⟩

/-- The three readings, whichever the free choice is (spec/92_eei_decisions.md D13). -/
theorem shiftReadingOf_cases (r : ShiftReading) (shift : Byte → Byte) (a f : Byte) :
    shiftReadingOf r shift a f = shift a ∨ shiftReadingOf r shift a f = shift f ∨ shiftReadingOf r shift a f = f := by
  cases r
  · exact .inl rfl
  · exact .inr (.inl rfl)
  · exact .inr (.inr rfl)

end Sys2Proof.Machine
end

