-- ==== Sys2Proof/Laws/Exec.lean ====
section
/-! SUPPORT. What each instruction can do, said once: the state it was given with a fault taken, or its writes with the new
pc. Everything about `exec` follows from `exec_next` without unfolding a meaning. -/

namespace Sys2Proof.Machine

/-- `t` is `u` with a pc that was checked against the `P_ADDR_LIMIT` of `s`. -/
def Advanced (s u t : State) : Prop := ∃ w : Word, w.toNat ≤ s.limit ∧ t = { u with pc := w }

/-- `t` is `u` with a checked I and a checked pc. -/
def AdvancedWithI (s u t : State) : Prop :=
  ∃ w j : Word, w.toNat ≤ s.limit ∧ j.toNat ≤ s.limit ∧ t = { u with i := j, pc := w }

/-- What instruction `i` makes of `s` where it raises no fault (the pseudocode of spec/41_framebuffer.md to
spec/45_timers_keys_random.md). -/
def Completes (i : Instr) (s t : State) : Prop :=
  match i with
  | .sys _ | .jp _ | .seImm _ _ | .sneImm _ _ | .seReg _ _ | .sneReg _ _ | .jpV0 _ => Advanced s s t
  | .cls => Advanced s { s with fb := clearFrame } t
  | .ret => ∃ k : Fin 16, s.sp = k.succ ∧ t = { s with pc := s.stack[k], sp := k.castSucc }
  | .call nnn => ∃ (k : Fin 16) (w : Word), w.toNat ≤ s.limit ∧ s.sp = k.castSucc ∧
      t = { s with stack := s.stack.set k w, sp := k.succ, pc := zext16 nnn }
  | .ldImm x kk => Advanced s (s.setV x kk) t
  | .addImm x kk => Advanced s (s.setV x (s.getV x + kk)) t
  | .ldReg x y => Advanced s (s.setV x (s.getV y)) t
  | .orReg x y => Advanced s (s.setV x (s.getV x ||| s.getV y)) t
  | .andReg x y => Advanced s (s.setV x (s.getV x &&& s.getV y)) t
  | .xorReg x y => Advanced s (s.setV x (s.getV x ^^^ s.getV y)) t
  | .addReg x y => Advanced s (resultThenFlag s x (s.getV x + s.getV y) (carryOf (s.getV x) (s.getV y))) t
  | .sub x y => Advanced s (resultThenFlag s x (s.getV x - s.getV y) (noBorrow (s.getV x) (s.getV y))) t
  | .subn x y => Advanced s (resultThenFlag s x (s.getV y - s.getV x) (noBorrow (s.getV y) (s.getV x))) t
  | .shr x _ => Advanced s (shiftWrites s x (· >>> 1) (lsbOf (s.getV x))) t
  | .shl x _ => Advanced s (shiftWrites s x (· <<< 1) (msbOf (s.getV x))) t
  | .ldI nnn => Advanced s { s with i := zext16 nnn } t
  | .rnd x kk => Advanced s { s.setV x (Config.freeByte s.draws &&& kk) with draws := s.draws + 1 } t
  | .drw x y n =>
    Advanced s (drawWrites s x y ((List.range n.toNat).map fun k => Memory.read s.mem (s.i.toNat + k))) t
  | .skp _ | .sknp _ => Advanced s { s with kq := s.kq.tail } t
  | .ldVxDt x => Advanced s (s.setV x s.dt) t
  | .ldVxK x => (s.kq = [] ∧ t = { s with kwReg := x, mode := .keyWait }) ∨
      ∃ (k : Nibble) (rest : List Nibble), s.kq = k :: rest ∧
        Advanced s ({ s with kq := rest }.setV x (zext8 k)) t
  | .ldDtVx x => Advanced s { s with dt := s.getV x } t
  | .ldStVx x => Advanced s { s with st := s.getV x } t
  | .addI _ | .ldF _ => AdvancedWithI s s t
  | .ldB x => Config.fontSize ≤ s.i.toNat ∧
      Advanced s { s with mem := Memory.writeList s.mem s.i.toNat (digits (s.getV x)) } t
  | .ldMemVx x => Config.fontSize ≤ s.i.toNat ∧
      AdvancedWithI s { s with mem := Memory.writeList s.mem s.i.toNat (s.regsTo x) } t
  | .ldVxMem x =>
    AdvancedWithI s (s.loadV ((List.range (x.toNat + 1)).map fun k => Memory.read s.mem (s.i.toNat + k))) t

theorem raise_next {code : FaultCode} {s t : State} (h : raise code s = .next t) : t = raiseFault code s := by
  cases h
  rfl

/-- A next state of `finishAt` is PC_OVERFLOW taken, or the writes with a checked pc. -/
theorem finishAt_next {s u t : State} {target : Nat} (h : finishAt s u target = .next t) :
    t = raiseFault .pcOverflow s ∨ Advanced s u t := by
  rcases finishAt_cases s u target with e | ⟨w, hw, hl, e⟩ <;> rw [e] at h
  · exact .inl (raise_next h)
  · cases h
    exact .inr ⟨w, by omega, rfl⟩

/-- A next state of `finishWithI` is I_OVERFLOW or PC_OVERFLOW taken, or the writes with a checked I and pc. -/
theorem finishWithI_next {s u t : State} {value : Nat} (h : finishWithI s u value = .next t) :
    t = raiseFault .iOverflow s ∨ t = raiseFault .pcOverflow s ∨ AdvancedWithI s u t := by
  rcases finishWithI_cases s u value with ⟨hv, e⟩ | ⟨hv, e⟩ <;> rw [e] at h
  · exact .inl (raise_next h)
  · rcases finishAt_next h with h | ⟨w, hw, h⟩
    · exact .inr (.inl h)
    · have hl := (limit_bounds s).2
      exact .inr (.inr ⟨w, _, hw, by rw [BitVec.toNat_ofNat]; omega, h⟩)

/-- A fault taken, or something else. -/
def FaultOr (s t : State) (p : Prop) : Prop := (∃ code, code ≠ .none ∧ t = raiseFault code s) ∨ p

theorem faultOr_of_raise {code : FaultCode} {s t : State} (p : Prop) (hc : code ≠ .none) (h : raise code s = .next t) :
    FaultOr s t p := .inl ⟨code, hc, raise_next h⟩

theorem faultOr_of_finishAt {s u t : State} {target : Nat} (h : finishAt s u target = .next t) :
    FaultOr s t (Advanced s u t) := (finishAt_next h).imp_left fun h => ⟨_, by decide, h⟩

theorem faultOr_of_finishWithI {s u t : State} {value : Nat} (h : finishWithI s u value = .next t) :
    FaultOr s t (AdvancedWithI s u t) := by
  rcases finishWithI_next h with h | h | h
  · exact .inl ⟨_, by decide, h⟩
  · exact .inl ⟨_, by decide, h⟩
  · exact .inr h

/-- Everything a next state of an instruction can be (spec/60_exceptions.md R362: a fault changes MODE and FCODE
only). -/
theorem exec_next {i : Instr} {s t : State} (h : exec i s = .next t) : FaultOr s t (Completes i s t) := by
  cases i with
  | ret =>
    simp only [exec, execRet] at h
    rcases pop_cases s with ⟨-, e⟩ | ⟨k, hk, e⟩ <;> rw [e] at h
    · exact faultOr_of_raise _ (by decide) h
    · cases h
      exact .inr ⟨k, hk, rfl⟩
  | jp nnn =>
    cases h
    have hl := (limit_bounds s).1
    have hn := nnn.isLt
    exact .inr ⟨zext16 nnn, by rw [zext16, BitVec.toNat_setWidth]; omega, rfl⟩
  | call nnn =>
    simp only [exec, execCall] at h
    split at h
    · exact faultOr_of_raise _ (by decide) h
    · rcases checkAddr_cases s (s.pc.toNat + 2) with ⟨-, e⟩ | ⟨w, e, hw, hl⟩ <;> simp only [e] at h
      · exact faultOr_of_raise _ (by decide) h
      · rcases push_cases s w with ⟨-, e⟩ | ⟨k, hk, e⟩ <;> rw [e] at h
        · exact faultOr_of_raise _ (by decide) h
        · cases h
          exact .inr ⟨k, w, by omega, hk, rfl⟩
  | drw x y n =>
    simp only [exec, execDrw] at h
    rcases memRead_cases s s.i.toNat n.toNat with ⟨-, -, e⟩ | ⟨-, e⟩ <;> rw [e] at h
    · exact faultOr_of_raise _ (by decide) h
    · exact faultOr_of_finishAt h
  | skp x =>
    simp only [exec, execSkp, keyPoll_eq] at h
    exact faultOr_of_finishAt h
  | sknp x =>
    simp only [exec, execSknp, keyPoll_eq] at h
    exact faultOr_of_finishAt h
  | ldVxK x =>
    simp only [exec, execLdVxK] at h
    split at h
    · next k rest hk => exact (faultOr_of_finishAt h).imp_right fun ha => .inr ⟨k, rest, hk, ha⟩
    · next hk =>
      cases h
      exact .inr (.inl ⟨hk, rfl⟩)
  | addI x => exact faultOr_of_finishWithI h
  | ldF x => exact faultOr_of_finishWithI h
  | ldB x =>
    simp only [exec, execLdB] at h
    rcases memWrite_cases s s.i.toNat (digits (s.getV x)) with ⟨-, -, e⟩ | ⟨-, -, -, e⟩ | ⟨-, hf, e⟩ <;> rw [e] at h
    · exact faultOr_of_raise _ (by decide) h
    · exact faultOr_of_raise _ (by decide) h
    · exact (faultOr_of_finishAt h).imp_right fun ha => ⟨hf.resolve_left (by simp [digits]), ha⟩
  | ldMemVx x =>
    simp only [exec, execLdMemVx] at h
    rcases memWrite_cases s s.i.toNat (s.regsTo x) with ⟨-, -, e⟩ | ⟨-, -, -, e⟩ | ⟨-, hf, e⟩ <;> rw [e] at h
    · exact faultOr_of_raise _ (by decide) h
    · exact faultOr_of_raise _ (by decide) h
    · exact (faultOr_of_finishWithI h).imp_right fun ha => ⟨hf.resolve_left (by simp [regsTo_length]), ha⟩
  | ldVxMem x =>
    simp only [exec, execLdVxMem] at h
    rcases memRead_cases s s.i.toNat (x.toNat + 1) with ⟨-, -, e⟩ | ⟨-, e⟩ <;> rw [e] at h
    · exact faultOr_of_raise _ (by decide) h
    · exact faultOr_of_finishWithI h
  | _ => exact faultOr_of_finishAt h

end Sys2Proof.Machine
end

