-- ==== Sys2Proof/Laws/Framebuffer.lean ====
section
/-! SUPPORT. The framebuffer as rows and pixels, and what drawing the columns of one sprite row does to its row. -/

namespace Sys2Proof.Machine

theorem pixel_eq (fb : Frame) {r c : Nat} (hr : r < 32) (hc : c < 64) : pixel fb r c = fb[r].getLsbD c := by
  simp [pixel, Nat.mod_eq_of_lt hr, Nat.mod_eq_of_lt hc]

/-- A row with no pixel on is 0, and conversely. -/
theorem row_ne_zero (w : Row) : w ≠ 0#64 ↔ ∃ c, c < 64 ∧ w.getLsbD c = true := by
  constructor
  · intro h
    by_contra hn
    refine h (BitVec.eq_of_getLsbD_eq fun k hk => ?_)
    by_contra e
    exact hn ⟨k, hk, by simpa using e⟩
  · rintro ⟨c, -, h⟩ e
    simp [e] at h

/-- The bits of a byte placed with its most significant bit at column `x mod 64` (spec/41_framebuffer.md R189). -/
theorem placed_bit (b : Byte) (x : Nat) {c : Nat} (hc : c < 64) :
    ((b.reverse.setWidth 64).rotateLeft (x % 64)).getLsbD c =
      (decide ((c + 64 - x % 64) % 64 < 8) && b.getLsbD (7 - (c + 64 - x % 64) % 64)) := by
  have hm : x % 64 < 64 := Nat.mod_lt _ (by decide)
  rw [BitVec.getLsbD_rotateLeft, Nat.mod_eq_of_lt hm]
  by_cases h : c < x % 64
  · rw [decide_eq_true h, cond_true, show (c + 64 - x % 64) % 64 = 64 - x % 64 + c by omega]
    simp only [BitVec.getLsbD_setWidth, BitVec.getLsbD_reverse, BitVec.getMsbD]
    rw [decide_eq_true (show 64 - x % 64 + c < 64 by omega)]
    simp
  · rw [decide_eq_false h, cond_false, show (c + 64 - x % 64) % 64 = c - x % 64 by omega]
    simp only [BitVec.getLsbD_setWidth, BitVec.getLsbD_reverse, BitVec.getMsbD]
    rw [decide_eq_true (show c - x % 64 < 64 by omega), decide_eq_true hc]
    simp

/-- The pixels that sprite columns `c` on, `left` of them, invert in their row. -/
def colsMask (x : Nat) (b : Byte) : Nat → Nat → Row
  | 0, _ => 0#64
  | left + 1, c => (if b.getLsbD (7 - c) then BitVec.twoPow 64 ((x + c) % 64) else 0#64) ||| colsMask x b left (c + 1)

theorem colsMask_bit (x : Nat) (b : Byte) :
    ∀ (left c k : Nat), k < 64 → ((colsMask x b left c).getLsbD k = true ↔
      ∃ j, c ≤ j ∧ j < c + left ∧ (x + j) % 64 = k ∧ b.getLsbD (7 - j) = true) := by
  intro left
  induction left with
  | zero =>
    intro c k _
    simp only [colsMask, BitVec.getLsbD_zero, Bool.false_eq_true, false_iff, not_exists]
    omega
  | succ left ih =>
    intro c k hk
    have h0 : (if b.getLsbD (7 - c) then BitVec.twoPow 64 ((x + c) % 64) else 0#64).getLsbD k = true ↔
        (x + c) % 64 = k ∧ b.getLsbD (7 - c) = true := by
      split
      · next h => simp [h, hk, eq_comm]
      · next h => simp [h]
    rw [colsMask, BitVec.getLsbD_or, Bool.or_eq_true, h0, ih _ _ hk]
    constructor
    · rintro (⟨h1, h2⟩ | ⟨j, h1, h2, h3, h4⟩)
      · exact ⟨c, by omega, by omega, h1, h2⟩
      · exact ⟨j, by omega, by omega, h3, h4⟩
    · rintro ⟨j, h1, h2, h3, h4⟩
      by_cases e : j = c
      · exact .inl ⟨e ▸ h3, e ▸ h4⟩
      · exact .inr ⟨j, by omega, by omega, h3, h4⟩

/-- All eight columns of a row byte make the byte placed at `x` (spec/41_framebuffer.md R189). -/
theorem colsMask_all (x : Nat) (b : Byte) : colsMask x b 8 0 = (b.reverse.setWidth 64).rotateLeft (x % 64) := by
  refine BitVec.eq_of_getLsbD_eq fun k hk => ?_
  rw [Bool.eq_iff_iff, colsMask_bit _ _ _ _ _ hk, placed_bit _ _ hk, Bool.and_eq_true, decide_eq_true_eq]
  constructor
  · rintro ⟨j, -, h2, h3, h4⟩
    rw [show (k + 64 - x % 64) % 64 = j by omega]
    exact ⟨by omega, h4⟩
  · rintro ⟨h1, h2⟩
    exact ⟨_, by omega, by omega, by omega, h2⟩

/-- The column just drawn is none of those left to draw: 8 columns are 8 distinct ones (spec/41_framebuffer.md R187). -/
theorem column_disjoint (x : Nat) (b : Byte) {left c : Nat} (h : c + (left + 1) ≤ 8) :
    BitVec.twoPow 64 ((x + c) % 64) &&& colsMask x b left (c + 1) = 0#64 := by
  refine BitVec.eq_of_getLsbD_eq fun k hk => ?_
  rw [BitVec.getLsbD_and, BitVec.getLsbD_zero, Bool.and_eq_false_iff]
  by_cases e : (x + c) % 64 = k
  · right
    rw [Bool.eq_false_iff, ne_eq, colsMask_bit _ _ _ _ _ hk]
    rintro ⟨j, h1, h2, h3, -⟩
    omega
  · left
    simp [BitVec.getLsbD_twoPow, e]

theorem plot_row (acc : Frame × Bool) {tr : Nat} (htr : tr < 32) (c : Nat) :
    plot acc tr (c % 64) = (acc.1.set tr (acc.1[tr] ^^^ BitVec.twoPow 64 (c % 64)),
      acc.2 || decide (acc.1[tr] &&& BitVec.twoPow 64 (c % 64) ≠ 0#64)) := by
  have hc : c % 64 < 64 := Nat.mod_lt _ (by decide)
  have hp : pixel acc.1 tr (c % 64) = decide (acc.1[tr] &&& BitVec.twoPow 64 (c % 64) ≠ 0#64) := by
    rw [pixel_eq _ htr hc, Bool.eq_iff_iff, decide_eq_true_eq, row_ne_zero]
    constructor
    · intro h
      exact ⟨c % 64, hc, by simp [h, hc]⟩
    · rintro ⟨k, -, h⟩
      simp only [BitVec.getLsbD_and, BitVec.getLsbD_twoPow, Bool.and_eq_true, decide_eq_true_eq] at h
      exact h.2.2 ▸ h.1
  simp only [plot, flipPixel, hp, Nat.mod_mod, Nat.mod_eq_of_lt htr]

/-- Everything the columns of one sprite row do: their row is XORed with their mask, and they collide where the mask
meets a pixel that is on (spec/41_framebuffer.md R183, R186). -/
theorem drawCols_eq (x : Nat) {tr : Nat} (htr : tr < 32) (b : Byte) :
    ∀ (left c : Nat) (acc : Frame × Bool), c + left ≤ 8 →
      drawCols x tr b left c acc = (acc.1.set tr (acc.1[tr] ^^^ colsMask x b left c),
        acc.2 || decide (acc.1[tr] &&& colsMask x b left c ≠ 0#64)) := by
  intro left
  induction left with
  | zero =>
    intro c acc _
    simp [drawCols, colsMask]
  | succ left ih =>
    intro c acc h
    have hd := column_disjoint x b h
    rw [drawCols, ih _ _ (by omega), colsMask]
    split
    · rw [plot_row _ htr]
      generalize BitVec.twoPow 64 ((x + c) % 64) = p at hd ⊢
      generalize colsMask x b left (c + 1) = m at hd ⊢
      have hb : ∀ k, (p.getLsbD k && m.getLsbD k) = false := fun k => by
        rw [← BitVec.getLsbD_and, hd, BitVec.getLsbD_zero]
      have h1 : acc.1[tr] ^^^ p ^^^ m = acc.1[tr] ^^^ (p ||| m) := by
        refine BitVec.eq_of_getLsbD_eq fun k _ => ?_
        have := hb k
        simp only [BitVec.getLsbD_xor, BitVec.getLsbD_or]
        revert this
        cases p.getLsbD k <;> cases m.getLsbD k <;> simp
      have h2 : (acc.1[tr] ^^^ p) &&& m = acc.1[tr] &&& m := by
        refine BitVec.eq_of_getLsbD_eq fun k _ => ?_
        have := hb k
        simp only [BitVec.getLsbD_and, BitVec.getLsbD_xor]
        revert this
        cases p.getLsbD k <;> cases m.getLsbD k <;> simp
      have h3 : (acc.1[tr] &&& (p ||| m) ≠ 0#64) ↔ (acc.1[tr] &&& p ≠ 0#64) ∨ (acc.1[tr] &&& m ≠ 0#64) := by
        simp only [row_ne_zero, BitVec.getLsbD_and, BitVec.getLsbD_or, Bool.and_or_distrib_left, Bool.or_eq_true]
        constructor
        · rintro ⟨k, hk, h | h⟩
          · exact .inl ⟨k, hk, h⟩
          · exact .inr ⟨k, hk, h⟩
        · rintro (⟨k, hk, h⟩ | ⟨k, hk, h⟩)
          · exact ⟨k, hk, .inl h⟩
          · exact ⟨k, hk, .inr h⟩
      simp only [Vector.getElem_set_self, Vector.set_set, h1, h2, Bool.or_assoc, ← Bool.decide_or]
      rw [decide_eq_decide.mpr h3]
    · simp

end Sys2Proof.Machine
end

