-- ==== Sys2Proof/Laws/PerInstr.lean ====
section
/-! SUPPORT. Statements made instruction by instruction: the encoder's word matches the instruction's row of the opcode map
(spec/30_encoding.md R123, "a word matches a row when w AND mask = match"). -/

namespace Sys2Proof.Laws.MatchesRow

/-- The word of an instruction matches its row. -/
def Statement (i : Instr) : Prop := encode i &&& i.row.1 = i.row.2

theorem nnn_masked (op : Nibble) (nnn : Addr12) : encodeNnn op nnn &&& 0xF000#16 = encodeNnn op 0x000#12 := by
  apply BitVec.eq_of_getLsbD_eq
  intro k hk
  simp only [BitVec.getLsbD_and, encodeNnn_bit]
  interval_cases k <;> simp

theorem xkk_masked_op (op x : Nibble) (kk : Byte) : encodeXkk op x kk &&& 0xF000#16 = encodeNnn op 0x000#12 := by
  apply BitVec.eq_of_getLsbD_eq
  intro k hk
  simp only [BitVec.getLsbD_and, encodeXkk_bit, encodeNnn_bit]
  interval_cases k <;> simp

theorem xkk_masked_sub (op x : Nibble) (kk : Byte) : encodeXkk op x kk &&& 0xF0FF#16 = encodeXkk op 0x0#4 kk := by
  apply BitVec.eq_of_getLsbD_eq
  intro k hk
  simp only [BitVec.getLsbD_and, encodeXkk_bit]
  interval_cases k <;> simp

theorem xyn_masked_op (op x y n : Nibble) : encodeXyn op x y n &&& 0xF000#16 = encodeNnn op 0x000#12 := by
  apply BitVec.eq_of_getLsbD_eq
  intro k hk
  simp only [BitVec.getLsbD_and, encodeXyn_bit, encodeNnn_bit]
  interval_cases k <;> simp

theorem xyn_masked_sub (op x y n : Nibble) : encodeXyn op x y n &&& 0xF00F#16 = encodeXyn op 0x0#4 0x0#4 n := by
  apply BitVec.eq_of_getLsbD_eq
  intro k hk
  simp only [BitVec.getLsbD_and, encodeXyn_bit]
  interval_cases k <;> simp

theorem sys (nnn : Addr12) : Statement (.sys nnn) := nnn_masked _ _

theorem cls : Statement .cls := rfl

theorem ret : Statement .ret := rfl

theorem jp (nnn : Addr12) : Statement (.jp nnn) := nnn_masked _ _

theorem call (nnn : Addr12) : Statement (.call nnn) := nnn_masked _ _

theorem seImm (x : Nibble) (kk : Byte) : Statement (.seImm x kk) := xkk_masked_op _ _ _

theorem sneImm (x : Nibble) (kk : Byte) : Statement (.sneImm x kk) := xkk_masked_op _ _ _

theorem seReg (x : Nibble) (y : Nibble) : Statement (.seReg x y) := xyn_masked_sub _ _ _ _

theorem ldImm (x : Nibble) (kk : Byte) : Statement (.ldImm x kk) := xkk_masked_op _ _ _

theorem addImm (x : Nibble) (kk : Byte) : Statement (.addImm x kk) := xkk_masked_op _ _ _

theorem ldReg (x : Nibble) (y : Nibble) : Statement (.ldReg x y) := xyn_masked_sub _ _ _ _

theorem orReg (x : Nibble) (y : Nibble) : Statement (.orReg x y) := xyn_masked_sub _ _ _ _

theorem andReg (x : Nibble) (y : Nibble) : Statement (.andReg x y) := xyn_masked_sub _ _ _ _

theorem xorReg (x : Nibble) (y : Nibble) : Statement (.xorReg x y) := xyn_masked_sub _ _ _ _

theorem addReg (x : Nibble) (y : Nibble) : Statement (.addReg x y) := xyn_masked_sub _ _ _ _

theorem sub (x : Nibble) (y : Nibble) : Statement (.sub x y) := xyn_masked_sub _ _ _ _

theorem shr (x : Nibble) (y : Nibble) : Statement (.shr x y) := xyn_masked_sub _ _ _ _

theorem subn (x : Nibble) (y : Nibble) : Statement (.subn x y) := xyn_masked_sub _ _ _ _

theorem shl (x : Nibble) (y : Nibble) : Statement (.shl x y) := xyn_masked_sub _ _ _ _

theorem sneReg (x : Nibble) (y : Nibble) : Statement (.sneReg x y) := xyn_masked_sub _ _ _ _

theorem ldI (nnn : Addr12) : Statement (.ldI nnn) := nnn_masked _ _

theorem jpV0 (nnn : Addr12) : Statement (.jpV0 nnn) := nnn_masked _ _

theorem rnd (x : Nibble) (kk : Byte) : Statement (.rnd x kk) := xkk_masked_op _ _ _

theorem drw (x : Nibble) (y : Nibble) (n : Nibble) : Statement (.drw x y n) := xyn_masked_op _ _ _ _

theorem skp (x : Nibble) : Statement (.skp x) := xkk_masked_sub _ _ _

theorem sknp (x : Nibble) : Statement (.sknp x) := xkk_masked_sub _ _ _

theorem ldVxDt (x : Nibble) : Statement (.ldVxDt x) := xkk_masked_sub _ _ _

theorem ldVxK (x : Nibble) : Statement (.ldVxK x) := xkk_masked_sub _ _ _

theorem ldDtVx (x : Nibble) : Statement (.ldDtVx x) := xkk_masked_sub _ _ _

theorem ldStVx (x : Nibble) : Statement (.ldStVx x) := xkk_masked_sub _ _ _

theorem addI (x : Nibble) : Statement (.addI x) := xkk_masked_sub _ _ _

theorem ldF (x : Nibble) : Statement (.ldF x) := xkk_masked_sub _ _ _

theorem ldB (x : Nibble) : Statement (.ldB x) := xkk_masked_sub _ _ _

theorem ldMemVx (x : Nibble) : Statement (.ldMemVx x) := xkk_masked_sub _ _ _

theorem ldVxMem (x : Nibble) : Statement (.ldVxMem x) := xkk_masked_sub _ _ _

end Sys2Proof.Laws.MatchesRow
end

