-- ==== Sys2Proof/Tests/Slice0.lean ====
section
/-! SUPPORT. Tests on fixed values, expected results from spec/95_test_vectors.md (the vector's id is in each comment) or from
the rule named; and a witness for the hypotheses of each statement in Obligations.lean. -/

namespace Sys2Proof.Tests

open Sys2Proof.Machine

/-! ## Well-formedness -/

/-- spec/30_encoding.md R114: SYS carries any address but those of CLS and RET. -/
theorem test_wellFormed_accepts :
    (Instr.sys 0x000#12).wellFormed = true ∧ (Instr.sys 0x1E0#12).wellFormed = true ∧
    (Instr.sys 0x0EF#12).wellFormed = true ∧ Instr.cls.wellFormed = true ∧
    (Instr.drw 0xF#4 0xF#4 0x0#4).wellFormed = true := by decide

theorem test_wellFormed_refuses :
    (Instr.sys 0x0E0#12).wellFormed = false ∧ (Instr.sys 0x0EE#12).wellFormed = false := by decide

/-! ## Decoding: one word per constructor, bits written from the patterns of spec/30_encoding.md R123 -/

theorem test_decode_control :
    decodeTableWord 16 0x0123 = some (.sys 0x123#12) ∧ decodeTableWord 16 0x00E0 = some .cls ∧
    decodeTableWord 16 0x00EE = some .ret ∧ decodeTableWord 16 0x1ABC = some (.jp 0xABC#12) ∧
    decodeTableWord 16 0x2300 = some (.call 0x300#12) ∧ decodeTableWord 16 0xB301 = some (.jpV0 0x301#12) := by decide

theorem test_decode_skips :
    decodeTableWord 16 0x3342 = some (.seImm 3#4 0x42#8) ∧ decodeTableWord 16 0x4A01 = some (.sneImm 0xA#4 0x01#8) ∧
    decodeTableWord 16 0x5120 = some (.seReg 1#4 2#4) ∧ decodeTableWord 16 0x9AB0 = some (.sneReg 0xA#4 0xB#4) ∧
    decodeTableWord 16 0xE19E = some (.skp 1#4) ∧ decodeTableWord 16 0xE3A1 = some (.sknp 3#4) := by decide

theorem test_decode_alu :
    decodeTableWord 16 0x6A3C = some (.ldImm 0xA#4 0x3C#8) ∧ decodeTableWord 16 0x71FF = some (.addImm 1#4 0xFF#8) ∧
    decodeTableWord 16 0x8120 = some (.ldReg 1#4 2#4) ∧ decodeTableWord 16 0x8121 = some (.orReg 1#4 2#4) ∧
    decodeTableWord 16 0x8122 = some (.andReg 1#4 2#4) ∧ decodeTableWord 16 0x8123 = some (.xorReg 1#4 2#4) ∧
    decodeTableWord 16 0x8124 = some (.addReg 1#4 2#4) ∧ decodeTableWord 16 0x8325 = some (.sub 3#4 2#4) ∧
    decodeTableWord 16 0x8196 = some (.shr 1#4 9#4) ∧ decodeTableWord 16 0x8127 = some (.subn 1#4 2#4) ∧
    decodeTableWord 16 0x812E = some (.shl 1#4 2#4) := by decide

theorem test_decode_memory :
    decodeTableWord 16 0xA300 = some (.ldI 0x300#12) ∧ decodeTableWord 16 0xF21E = some (.addI 2#4) ∧
    decodeTableWord 16 0xFC29 = some (.ldF 0xC#4) ∧ decodeTableWord 16 0xF433 = some (.ldB 4#4) ∧
    decodeTableWord 16 0xF555 = some (.ldMemVx 5#4) ∧ decodeTableWord 16 0xF265 = some (.ldVxMem 2#4) ∧
    decodeTableWord 16 0xDAB5 = some (.drw 0xA#4 0xB#4 5#4) := by decide

theorem test_decode_timers_random :
    decodeTableWord 16 0xC10F = some (.rnd 1#4 0x0F#8) ∧ decodeTableWord 16 0xF307 = some (.ldVxDt 3#4) ∧
    decodeTableWord 16 0xF30A = some (.ldVxK 3#4) ∧ decodeTableWord 16 0xF015 = some (.ldDtVx 0#4) ∧
    decodeTableWord 16 0xF018 = some (.ldStVx 0#4) := by decide

/-- DEC8 to DEC12: words that match no row. -/
theorem test_decode_unrecognized :
    ([0x5121, 0x9AB3, 0x8128, 0x8129, 0x812A, 0x812B, 0x812C, 0x812D, 0x812F, 0xE100, 0xE19F, 0xE1A0, 0xF000, 0xF008,
      0xF030, 0xF0FF].all fun w => decodeTableWord 16 w == none) = true := by decide

/-- The encoder against the words of spec/95_test_vectors.md. -/
theorem test_encode :
    encode (.jp 0x234#12) = 0x1234#16 ∧ encode (.drw 0xA#4 0xB#4 5#4) = 0xDAB5#16 ∧
    encode (.shr 1#4 9#4) = 0x8196#16 ∧ encode (.sknp 3#4) = 0xE3A1#16 ∧ encode (.ldVxMem 2#4) = 0xF265#16 := by decide

/-! ## States and steps -/

/-- The reset state with some registers set. -/
def withV (l : List (Nibble × Byte)) : State := l.foldl (fun s p => s.setV p.1 p.2) State.reset

/-- The reset state with pc set. -/
def atPc (pc : Word) : State := { State.reset with pc := pc }

/-- A state with bytes stored from an address on. -/
def poke (s : State) (a : Nat) (bs : List Byte) : State := { s with mem := Memory.writeList s.mem a bs }

/-- The step that runs a word at the pc of a state. -/
def run (s : State) (w : Nat) : Result := step (s.withFetchWord 16 w)

/-- Whether a step has a next state, with a property. -/
def after (r : Result) (p : State → Bool) : Bool :=
  match r with
  | .next t => p t
  | _ => false

/-- The next state of a step that has one. -/
def nextOf (r : Result) : State :=
  match r with
  | .next t => t
  | _ => State.reset

/-- Whether a step took a fault in the state given. -/
def faults (r : Result) (code : FaultCode) (pc : Word) : Bool :=
  after r fun t => t.statusOut == (.fault, code) && t.pc == pc && t.frames == []

/-- The words of a region of memory. -/
def peek (s : State) (a n : Nat) : List Byte := (List.range n).map fun k => Memory.read s.mem (a + k)

/-- The limit 0xFFFF in place of the default. -/
def wide (s : State) : State := { s with params := { Config.defaults with addrLimit := .space16 } }

/-! ## Control flow -/

/-- CF1, DEC6. -/
theorem test_sys : after (run State.reset 0x0123) (fun t => t.pc == 0x202#16 && t.v == State.reset.v) = true := by decide

/-- CF2; CF4: the next cycle is FETCH_OOB. -/
theorem test_jp : after (run State.reset 0x1ABC) (fun t => t.pc == 0xABC#16) = true := by decide
theorem test_jp_fetchOob : after (run State.reset 0x1FFF)
    (fun t => after (step t) fun u => u.statusOut == (.fault, .fetchOob) && u.pc == 0xFFF#16) = true := by decide

/-- W6; CF7. -/
theorem test_call : after (run (atPc 0x204#16) 0x2300)
    (fun t => t.pc == 0x300#16 && t.sp == 1 && t.stack[0] == 0x206#16) = true := by decide
theorem test_call_last : after (run { State.reset with sp := 15 } 0x2300)
    (fun t => t.pc == 0x300#16 && t.sp == 16 && t.stack[15] == 0x202#16) = true := by decide

/-- W6; CF5. -/
theorem test_ret : after (run { atPc 0x300#16 with sp := 1, stack := State.reset.stack.set 0 0x206#16 } 0x00EE)
    (fun t => t.pc == 0x206#16 && t.sp == 0) = true := by decide
theorem test_ret_empty : faults (run State.reset 0x00EE) .stackUnderflow 0x200#16 = true := by decide

/-- CF10. -/
theorem test_seImm : after (run { withV [(3#4, 0x42#8)] with pc := 0x210#16 } 0x3342) (fun t => t.pc == 0x214#16) = true := by
  decide
theorem test_seImm_not : after (run { withV [(3#4, 0x42#8)] with pc := 0x210#16 } 0x3343)
    (fun t => t.pc == 0x212#16) = true := by decide

/-- CF11. -/
theorem test_sneImm : after (run { withV [(3#4, 0x42#8)] with pc := 0x210#16 } 0x4342)
    (fun t => t.pc == 0x212#16) = true := by decide
theorem test_sneImm_not : after (run { withV [(3#4, 0x42#8)] with pc := 0x210#16 } 0x4343)
    (fun t => t.pc == 0x214#16) = true := by decide

/-- CF12. -/
theorem test_seReg : after (run (withV [(1#4, 7#8), (2#4, 7#8)]) 0x5120) (fun t => t.pc == 0x204#16) = true := by decide
theorem test_sneReg : after (run (withV [(1#4, 7#8), (2#4, 7#8)]) 0x9120) (fun t => t.pc == 0x202#16) = true := by decide
/-- Example of spec/42_control_flow.md R218. -/
theorem test_sneReg_differ : after (run (withV [(1#4, 7#8), (2#4, 8#8)]) 0x9120)
    (fun t => t.pc == 0x204#16) = true := by decide

/-- CF16, CF17. -/
theorem test_jpV0 : after (run (withV [(0#4, 0x10#8)]) 0xB300) (fun t => t.pc == 0x310#16) = true := by decide
theorem test_jpV0_wide : after (run (wide (withV [(0#4, 0x01#8)])) 0xBFFF) (fun t => t.pc == 0x1000#16) = true := by decide

/-! ## Registers and the ALU -/

/-- ALU1, ALU2. -/
theorem test_ldImm : after (run State.reset 0x6A3C) (fun t => t.getV 0xA#4 == 0x3C#8 && t.pc == 0x202#16) = true := by decide
theorem test_ldImm_vF : after (run State.reset 0x6FFF) (fun t => t.getV 0xF#4 == 0xFF#8) = true := by decide

/-- W2, ALU4. -/
theorem test_addImm : after (run (withV [(1#4, 0xFA#8)]) 0x710A)
    (fun t => t.getV 1#4 == 0x04#8 && t.getV 0xF#4 == 0#8) = true := by decide
theorem test_addImm_vF : after (run (withV [(0xF#4, 0xFF#8)]) 0x7F01) (fun t => t.getV 0xF#4 == 0#8) = true := by decide

/-- ALU5. -/
theorem test_ldReg : after (run (withV [(2#4, 0x55#8)]) 0x8120) (fun t => t.getV 1#4 == 0x55#8) = true := by decide

/-- ALU6, ALU7; examples of spec/43_register_alu.md R255, R256. -/
theorem test_or : after (run (withV [(1#4, 0xF0#8), (2#4, 0x0F#8), (0xF#4, 7#8)]) 0x8121)
    (fun t => t.getV 1#4 == 0xFF#8 && t.getV 0xF#4 == 7#8) = true := by decide
theorem test_and : after (run (withV [(1#4, 0xF0#8), (2#4, 0x3C#8), (0xF#4, 7#8)]) 0x8122)
    (fun t => t.getV 1#4 == 0x30#8 && t.getV 0xF#4 == 7#8) = true := by decide
theorem test_xor : after (run (withV [(1#4, 0xF0#8), (2#4, 0x3C#8), (0xF#4, 7#8)]) 0x8123)
    (fun t => t.getV 1#4 == 0xCC#8 && t.getV 0xF#4 == 7#8) = true := by decide

/-- W2, ALU11. -/
theorem test_addReg : after (run (withV [(1#4, 0xFA#8), (2#4, 0x0A#8)]) 0x8124)
    (fun t => t.getV 1#4 == 0x04#8 && t.getV 0xF#4 == 1#8) = true := by decide
theorem test_addReg_vF : after (run (withV [(0xF#4, 1#8), (1#4, 0xFF#8)]) 0x8F14) (fun t => t.getV 0xF#4 == 1#8) = true := by
  decide

/-- W3, ALU14. -/
theorem test_sub : after (run (withV [(1#4, 0x05#8), (2#4, 0x0A#8)]) 0x8125)
    (fun t => t.getV 1#4 == 0xFB#8 && t.getV 0xF#4 == 0#8) = true := by decide
theorem test_sub_vF : after (run (withV [(0xF#4, 5#8), (1#4, 0x0A#8)]) 0x8F15) (fun t => t.getV 0xF#4 == 0#8) = true := by
  decide

/-- ALU18; ALU19: one of three values. -/
theorem test_shr : after (run (withV [(1#4, 0x80#8), (9#4, 0x33#8)]) 0x8196)
    (fun t => t.getV 1#4 == 0x40#8 && t.getV 0xF#4 == 0#8 && t.getV 9#4 == 0x33#8) = true := by decide
theorem test_shr_vF (r : ShiftReading) :
    shiftReadingOf r (· >>> 1) 0x05#8 (lsbOf 0x05#8) ∈ [0x02#8, 0x00#8, 0x01#8] := by
  cases r <;> decide

/-- ALU15, ALU16. -/
theorem test_subn : after (run (withV [(1#4, 0x0A#8), (2#4, 0xFA#8)]) 0x8127)
    (fun t => t.getV 1#4 == 0xF0#8 && t.getV 0xF#4 == 1#8) = true := by decide
theorem test_subn_borrow : after (run (withV [(1#4, 0x0A#8), (2#4, 0x05#8)]) 0x8127)
    (fun t => t.getV 1#4 == 0xFB#8 && t.getV 0xF#4 == 0#8) = true := by decide

/-- ALU20; ALU22: one of two values. -/
theorem test_shl : after (run (withV [(1#4, 0x81#8)]) 0x812E)
    (fun t => t.getV 1#4 == 0x02#8 && t.getV 0xF#4 == 1#8) = true := by decide
theorem test_shl_vF (r : ShiftReading) :
    shiftReadingOf r (· <<< 1) 0x81#8 (msbOf 0x81#8) ∈ [0x02#8, 0x01#8] := by
  cases r <;> decide

/-! ## Index register and memory -/

/-- MEM1, MEM2, MEM3. -/
theorem test_ldI : after (run State.reset 0xA300) (fun t => t.i == 0x300#16) = true := by decide
theorem test_addI : after (run { withV [(2#4, 0xFF#8)] with i := 0x100#16 } 0xF21E) (fun t => t.i == 0x1FF#16) = true := by
  decide
theorem test_addI_overflow : faults (run { withV [(2#4, 0xFF#8)] with i := 0xF01#16 } 0xF21E) .iOverflow 0x200#16 = true := by
  decide

/-- MEM4, MEM5. -/
theorem test_ldF : after (run (withV [(2#4, 0x0A#8)]) 0xF229) (fun t => t.i == 0x032#16) = true := by decide
theorem test_ldF_outside : after (run (withV [(2#4, 0xFF#8)]) 0xF229) (fun t => t.i == 0x4FB#16) = true := by decide

/-- W7; MEM10. -/
theorem test_ldB : after (run { withV [(4#4, 0x7B#8)] with i := 0x300#16 } 0xF433)
    (fun t => peek t 0x300 3 == [1#8, 2#8, 3#8] && t.i == 0x300#16) = true := by decide
theorem test_ldB_font : faults (run { State.reset with i := 0x04F#16 } 0xF033) .fontWrite 0x200#16 = true := by decide

/-- MEM12; MEM14: the write is not committed. -/
theorem test_ldMemVx : after (run { withV [(0#4, 1#8), (1#4, 2#8), (2#4, 3#8)] with i := 0x300#16 } 0xF255)
    (fun t => peek t 0x300 4 == [1#8, 2#8, 3#8, 0#8] && t.i == 0x303#16) = true := by decide
theorem test_ldMemVx_overflow : after (run { withV [(0#4, 9#8)] with i := 0xFFF#16 } 0xF055)
    (fun t => t.statusOut == (.fault, .iOverflow) && Memory.read t.mem 0xFFF == 0#8) = true := by decide

/-- MEM17; MEM19. -/
theorem test_ldVxMem : after (run State.reset 0xF465)
    (fun t => t.regsTo 5#4 == [0xF0#8, 0x90#8, 0x90#8, 0x90#8, 0xF0#8, 0x00#8] && t.i == 0x005#16) = true := by decide
theorem test_ldVxMem_oob : faults (run { State.reset with i := 0xFF1#16 } 0xFF65) .memOob 0x200#16 = true := by decide

/-! ## The framebuffer -/

/-- FB1. -/
theorem test_cls : after (run { State.reset with fb := Vector.replicate 32 0xFF#64 } 0x00E0)
    (fun t => t.fb == clearFrame && t.frames == [clearFrame]) = true := by decide

/-- W5, FB7, FB5. -/
theorem test_drw_wraps : (drawSprite clearFrame 60 0 [0xFF#8] ==
    (clearFrame.set 0 (BitVec.ofNat 64 0xF00000000000000F), false)) = true := by decide
theorem test_drw_vF : after (run { poke (withV [(0xF#4, 5#8), (1#4, 2#8)]) 0x300 [0x80#8] with i := 0x300#16 } 0xDF11)
    (fun t => pixel t.fb 2 5 && t.getV 0xF#4 == 0#8) = true := by decide

/-! ## Random, keys and timers -/

/-- RND2: whatever the draw is, masked by 0 it is 0. -/
theorem test_rnd : (nextOf (exec (.rnd 1#4 0x00#8) State.reset)).getV 1#4 = 0x00#8 := by
  show Config.freeByte 0 &&& 0x00#8 = 0x00#8
  simp

/-- KEY1, KEY5. -/
theorem test_skp : after (run { withV [(1#4, 5#8)] with pc := 0x300#16, kq := [5#4] } 0xE19E)
    (fun t => t.pc == 0x304#16 && t.kq == []) = true := by decide
theorem test_skp_eight_bits : after (run { withV [(1#4, 0x15#8)] with pc := 0x300#16, kq := [5#4] } 0xE19E)
    (fun t => t.pc == 0x302#16 && t.kq == []) = true := by decide

/-- W9, KEY3. -/
theorem test_sknp_empty : after (run (atPc 0x300#16) 0xE1A1) (fun t => t.pc == 0x304#16) = true := by decide
theorem test_sknp : after (run { withV [(1#4, 5#8)] with pc := 0x300#16, kq := [5#4] } 0xE1A1)
    (fun t => t.pc == 0x302#16 && t.kq == []) = true := by decide

/-- FSM7, FSM2. -/
theorem test_ldVxK : after (run { State.reset with kq := [0xA#4, 2#4] } 0xF50A)
    (fun t => t.getV 5#4 == 0x0A#8 && t.kq == [2#4] && t.pc == 0x202#16) = true := by decide
theorem test_ldVxK_waits : after (run State.reset 0xF30A)
    (fun t => t.mode == .keyWait && t.kwReg == 3#4 && t.pc == 0x200#16 && t.frames == []) = true := by decide

/-- TMR3, TMR1, TMR2. -/
theorem test_ldVxDt : after (run { State.reset with dt := 0x20#8 } 0xF307) (fun t => t.getV 3#4 == 0x20#8) = true := by decide
theorem test_ldDtVx : after (run (withV [(0#4, 0x3C#8)]) 0xF015) (fun t => t.dt == 0x3C#8) = true := by decide
theorem test_ldStVx : after (run (withV [(0#4, 0x02#8)]) 0xF018) (fun t => t.st == 0x02#8) = true := by decide

/-- TMR4, TMR5. -/
theorem test_tick : tick { State.reset with dt := 0#8, st := 3#8 } = { State.reset with st := 2#8 } ∧
    tick { State.reset with dt := 1#8, st := 0#8 } = State.reset := by decide

/-! ## Cycle and faults -/

/-- FSM1. -/
theorem test_cancel_first : after (loopStep { poke State.reset 0x200 [0xFF#8, 0xFF#8] with cancel := true })
    (fun t => t.mode == .terminated && t.fcode == .none && t.frames == []) = true := by decide

/-- CF9: STACK_OVERFLOW before PC_OVERFLOW. -/
theorem test_priority : faults (run { atPc 0xFFE#16 with sp := 16 } 0x2300) .stackOverflow 0xFFE#16 = true := by decide

/-- DEC14: a skip over an illegal word. -/
theorem test_skip_illegal : after (run (poke (atPc 0x208#16) 0x20A [0xFF#8, 0xFF#8]) 0x3100)
    (fun t => t.pc == 0x20C#16 && t.mode == .run) = true := by decide

/-- spec/60_exceptions.md R361: the codes' numbers. -/
theorem test_codes : [FaultCode.none, .illegalOpcode, .stackOverflow, .stackUnderflow, .pcOverflow, .iOverflow, .fetchOob,
    .memOob, .fontWrite, .romTooLarge].map FaultCode.number = [0, 1, 2, 3, 4, 5, 6, 7, 8, 9] := by decide

/-! ## Witnesses: states and operands that meet the hypotheses of each statement, at the boundary of every clause -/

/-- Two states on the two sides of the limit for a pc advance by `n`: the first completes, the second is
PC_OVERFLOW. -/
def edge (n : Nat) (i : Instr) (lo hi : State) : Bool :=
  decide (lo.pc.toNat + n ≤ lo.limit) && decide (hi.limit < hi.pc.toNat + n) &&
  after (exec i lo) (fun t => t.mode == .run && t.pc.toNat == lo.pc.toNat + n) && faults (exec i hi) .pcOverflow hi.pc

/-- The two sides for an advance by 2 under the default limit, in two states given but for pc. -/
def edge2 (i : Instr) (s : State) : Bool := edge 2 i { s with pc := 0xFFD#16 } { s with pc := 0xFFE#16 }

/-- The two sides for an advance by 4. -/
def edge4 (i : Instr) (s : State) : Bool := edge 4 i { s with pc := 0xFFB#16 } { s with pc := 0xFFC#16 }

theorem test_witness_DecodeOfEncodeIsTheInstruction :
    Config.defaults.decode0 = .exact ∧ (Params.mk .space16 .ignore .exact).decode0 = .exact ∧
    (Instr.sys 0x0E1#12).wellFormed = true ∧ (Instr.sys 0x0EF#12).wellFormed = true ∧
    (Instr.shl 0xF#4 0xF#4).wellFormed = true := by decide

theorem test_witness_EncodeOfDecodeIsTheWord :
    decode Config.defaults 0x0000#16 = .instr (.sys 0x000#12) ∧ decode Config.defaults 0xFF65#16 = .instr (.ldVxMem 0xF#4) := by
  decide

theorem test_witness_OperatorZeroIsExactMatch :
    (0x0E1#12 ≠ 0x0E0#12 ∧ 0x0E1#12 ≠ 0x0EE#12) ∧ (Params.mk .space12 .strict .refuseAmbiguous).decode0 = .refuseAmbiguous ∧
    0x1#4 ≠ 0#4 ∧ 0xF#4 ≠ 0#4 ∧ (0xE1#8 ≠ 0xE0#8 ∧ 0xE1#8 ≠ 0xEE#8) ∧
    decode (.mk .space12 .strict .refuseAmbiguous) 0x01E0#16 = .ambiguous ∧
    decode (.mk .space12 .strict .refuseAmbiguous) 0x0FEE#16 = .ambiguous ∧
    decode (.mk .space12 .strict .refuseAmbiguous) 0x0FE1#16 = .instr (.sys 0xFE1#12) := by decide

theorem test_witness_SecondLevelDispatchOfEightEAndF :
    0x8#4 ∈ [0x8#4, 0x9#4, 0xA#4, 0xB#4, 0xC#4, 0xD#4, 0xF#4] ∧ 0x9D#8 ∉ [0x9E#8, 0xA1#8] ∧ 0xA2#8 ∉ [0x9E#8, 0xA1#8] ∧
    0x06#8 ∉ [0x07#8, 0x0A#8, 0x15#8, 0x18#8, 0x1E#8, 0x29#8, 0x33#8, 0x55#8, 0x65#8] ∧
    0x66#8 ∉ [0x07#8, 0x0A#8, 0x15#8, 0x18#8, 0x1E#8, 0x29#8, 0x33#8, 0x55#8, 0x65#8] := by decide

/-- DEC8 and DEC9 under both values of `P_DECODE_5_9`. -/
theorem test_witness_OperatorsFiveAndNineTestTheLowNibble :
    Config.defaults.decode59 = .strict ∧ (Params.mk .space12 .ignore .exact).decode59 = .ignore ∧ 0x1#4 ≠ 0#4 ∧
    decode Config.defaults 0x5121#16 = .illegal ∧ decode (.mk .space12 .ignore .exact) 0x5121#16 = .instr (.seReg 1#4 2#4) ∧
    decode (.mk .space12 .ignore .exact) 0x9AB3#16 = .instr (.sneReg 0xA#4 0xB#4) := by decide

theorem test_witness_SysOnlyAdvancesPc :
    Config.defaults.decode0 = .exact ∧ (0x0EF#12 ≠ 0x0E0#12 ∧ 0x0EF#12 ≠ 0x0EE#12) ∧
    edge2 (.sys 0x0EF#12) State.reset = true := by decide

/-- Both ends of the stack, and the empty stack. -/
theorem test_witness_RetPopsIntoPc :
    (1 : Fin 17) = (0 : Fin 16).succ ∧ (16 : Fin 17) = (15 : Fin 16).succ ∧ State.reset.sp = 0 ∧
    after (exec .ret { State.reset with sp := 16, stack := State.reset.stack.set 15 0x206#16 })
      (fun t => t.pc == 0x206#16 && t.sp == 15) = true := by decide

/-- CF6 to CF9. -/
theorem test_witness_CallPushesReturnAddress :
    (0 : Fin 17) = (0 : Fin 16).castSucc ∧ (15 : Fin 17) = (15 : Fin 16).castSucc ∧
    (atPc 0xFFD#16).pc.toNat + 2 ≤ (atPc 0xFFD#16).limit ∧ (atPc 0xFFE#16).limit < (atPc 0xFFE#16).pc.toNat + 2 ∧
    after (exec (.call 0x300#12) { atPc 0xFFD#16 with sp := 15 }) (fun t => t.sp == 16 && t.stack[15] == 0xFFF#16) = true ∧
    faults (exec (.call 0x300#12) (atPc 0xFFE#16)) .pcOverflow 0xFFE#16 = true ∧
    faults (exec (.call 0x300#12) { atPc 0xFFE#16 with sp := 16 }) .stackOverflow 0xFFE#16 = true ∧
    after (exec (.call 0x300#12) (wide (atPc 0xFFE#16))) (fun t => t.stack[0] == 0x1000#16 && t.pc == 0x300#16) = true := by
  decide

theorem test_witness_SkipsOnImmediate :
    edge4 (.seImm 3#4 0x00#8) State.reset = true ∧ edge2 (.seImm 3#4 0x01#8) State.reset = true ∧
    edge4 (.sneImm 3#4 0x01#8) State.reset = true ∧ edge2 (.sneImm 3#4 0x00#8) State.reset = true := by decide

theorem test_witness_SkipsOnRegisters :
    Config.defaults.decode59 = .strict ∧ 0x1#4 ≠ 0#4 ∧
    edge4 (.seReg 1#4 2#4) State.reset = true ∧ edge2 (.seReg 1#4 2#4) (withV [(1#4, 1#8)]) = true ∧
    edge4 (.sneReg 1#4 2#4) (withV [(1#4, 1#8)]) = true ∧ edge2 (.sneReg 1#4 2#4) State.reset = true := by decide

/-- CF17, CF18. -/
theorem test_witness_JpV0AddsV0 :
    (0xFFF#12).toNat + (State.reset.getV 0#4).toNat ≤ State.reset.limit ∧
    State.reset.limit < (0xFFF#12).toNat + ((withV [(0#4, 1#8)]).getV 0#4).toNat ∧
    after (exec (.jpV0 0xFFF#12) State.reset) (fun t => t.pc == 0xFFF#16) = true ∧
    faults (exec (.jpV0 0xFFF#12) (withV [(0#4, 1#8)])) .pcOverflow 0x200#16 = true := by decide

/-- W6, with the deepest stack too. -/
theorem test_witness_CallThenRetReturns : ∀ sp : Fin 17, sp = 0 ∨ sp = 15 →
    ∃ s t u : State, s.sp = sp ∧ s.sp ≠ 16 ∧ s.pc.toNat + 2 ≤ s.limit ∧ exec (.call 0x300#12) s = .next t ∧
      u.sp = t.sp ∧ ∀ k : Fin 16, k.val < t.sp.val → u.stack[k] = t.stack[k] := by
  rintro sp (rfl | rfl)
  · exact ⟨atPc 0x204#16, nextOf (exec (.call 0x300#12) (atPc 0x204#16)), nextOf (exec (.call 0x300#12) (atPc 0x204#16)),
      rfl, by decide, by decide, rfl, rfl, fun _ _ => rfl⟩
  · exact ⟨{ atPc 0x204#16 with sp := 15 }, nextOf (exec (.call 0x300#12) { atPc 0x204#16 with sp := 15 }),
      nextOf (exec (.call 0x300#12) { atPc 0x204#16 with sp := 15 }), rfl, by decide, by decide, rfl, rfl, fun _ _ => rfl⟩

theorem test_witness_ImmediateLoadAndAdd :
    edge2 (.ldImm 0xA#4 0x3C#8) State.reset = true ∧ edge2 (.addImm 1#4 0x01#8) State.reset = true := by decide

theorem test_witness_CopyAndLogicWriteVxOnly :
    edge2 (.ldReg 1#4 2#4) State.reset = true ∧ edge2 (.orReg 1#4 2#4) State.reset = true ∧
    edge2 (.andReg 1#4 2#4) State.reset = true ∧ edge2 (.xorReg 1#4 2#4) State.reset = true := by decide

theorem test_witness_AddWritesSumThenCarry : edge2 (.addReg 1#4 2#4) State.reset = true := by decide

theorem test_witness_SubAndSubnWriteDifferenceThenNoBorrow :
    edge2 (.sub 1#4 2#4) State.reset = true ∧ edge2 (.subn 1#4 2#4) State.reset = true := by decide

/-- Vx other than VF, and Vx being VF. -/
theorem test_witness_ShrShiftsRightByOne :
    0xE#4 ≠ 0xF#4 ∧ edge2 (.shr 0xE#4 2#4) State.reset = true ∧ edge2 (.shr 0xF#4 2#4) State.reset = true := by decide

theorem test_witness_ShlShiftsLeftByOne :
    0xE#4 ≠ 0xF#4 ∧ edge2 (.shl 0xE#4 2#4) State.reset = true ∧ edge2 (.shl 0xF#4 2#4) State.reset = true := by decide

theorem test_witness_LdIWritesI : edge2 (.ldI 0x300#12) State.reset = true := by decide

/-- I + Vx at 0xFFF and at 0x1000, and pc past the limit. -/
theorem test_witness_AddIAddsVx :
    0xF00 + 0xFF ≤ State.reset.limit ∧ State.reset.limit < 0xF01 + 0xFF ∧
    after (exec (.addI 2#4) { withV [(2#4, 0xFF#8)] with i := 0xF00#16 }) (fun t => t.i == 0xFFF#16) = true ∧
    faults (exec (.addI 2#4) { withV [(2#4, 0xFF#8)] with i := 0xF01#16, pc := 0xFFE#16 }) .iOverflow 0xFFE#16 = true ∧
    edge2 (.addI 2#4) State.reset = true := by decide

theorem test_witness_LdFPointsAtGlyph : edge2 (.ldF 2#4) State.reset = true := by decide

/-- MEM8 to MEM11, and pc past the limit. -/
theorem test_witness_LdBStoresDecimalDigits :
    (0xFFD + 2 ≤ 0xFFF ∧ 0x04F < 0xFFD) ∧ (0x050 + 2 ≤ 0xFFF ∧ 0x04F < 0x050) ∧ 0xFFF < 0xFFE + 2 ∧
    after (exec (.ldB 4#4) { withV [(4#4, 0xFE#8)] with i := 0xFFD#16 }) (fun t => peek t 0xFFD 3 == [2#8, 5#8, 4#8]) = true ∧
    after (exec (.ldB 4#4) { withV [(4#4, 0xFE#8)] with i := 0x050#16 }) (fun t => peek t 0x050 3 == [2#8, 5#8, 4#8]) = true ∧
    faults (exec (.ldB 4#4) { State.reset with i := 0xFFE#16 }) .memOob 0x200#16 = true ∧
    faults (exec (.ldB 4#4) { State.reset with i := 0x04F#16 }) .fontWrite 0x200#16 = true ∧
    edge2 (.ldB 4#4) { State.reset with i := 0x300#16 } = true := by decide

/-- MEM14 to MEM16 and I + x + 1 at the limit; the order of the faults; pc past the limit. -/
theorem test_witness_LdMemVxStoresTheBlock :
    after (exec (.ldMemVx 2#4) { withV [(2#4, 7#8)] with i := 0xFFC#16 })
      (fun t => t.i == 0xFFF#16 && Memory.read t.mem 0xFFE == 7#8) = true ∧
    after (exec (.ldMemVx 2#4) (wide { withV [(2#4, 7#8)] with i := 0xFFD#16 }))
      (fun t => t.i == 0x1000#16 && Memory.read t.mem 0xFFF == 7#8) = true ∧
    after (exec (.ldMemVx 0#4) { withV [(0#4, 7#8)] with i := 0x050#16 }) (fun t => Memory.read t.mem 0x050 == 7#8) = true ∧
    faults (exec (.ldMemVx 2#4) { State.reset with i := 0xFFD#16 }) .iOverflow 0x200#16 = true ∧
    faults (exec (.ldMemVx 2#4) { State.reset with i := 0xFFE#16 }) .memOob 0x200#16 = true ∧
    faults (exec (.ldMemVx 2#4) { State.reset with i := 0x04F#16 }) .fontWrite 0x200#16 = true ∧
    edge2 (.ldMemVx 2#4) { State.reset with i := 0x300#16 } = true := by decide

/-- MEM19, MEM20 and I + x + 1 at the limit; pc past the limit. -/
theorem test_witness_LdVxMemLoadsTheBlock :
    after (exec (.ldVxMem 0xF#4) { poke State.reset 0xFFE [9#8] with i := 0xFEF#16 })
      (fun t => t.i == 0xFFF#16 && t.getV 0xF#4 == 9#8) = true ∧
    faults (exec (.ldVxMem 0xF#4) { State.reset with i := 0xFF0#16 }) .iOverflow 0x200#16 = true ∧
    faults (exec (.ldVxMem 0xF#4) { State.reset with i := 0xFF1#16 }) .memOob 0x200#16 = true ∧
    edge2 (.ldVxMem 2#4) { State.reset with i := 0x300#16 } = true := by decide

/-- W8: the store and the load at the same I. -/
theorem test_witness_StoreThenLoadRestoresRegisters :
    ∃ s t u w : State, exec (.ldMemVx 1#4) s = .next t ∧ t.mode ≠ .fault ∧ u.mem = t.mem ∧ u.i = s.i ∧
      exec (.ldVxMem 1#4) u = .next w ∧ w.mode ≠ .fault :=
  let s := { withV [(0#4, 0x11#8), (1#4, 0x22#8)] with i := 0x400#16 }
  let u := { State.reset with mem := (nextOf (exec (.ldMemVx 1#4) s)).mem, i := 0x400#16 }
  ⟨s, nextOf (exec (.ldMemVx 1#4) s), u, nextOf (exec (.ldVxMem 1#4) u), rfl, by decide, rfl, rfl, rfl, by decide⟩

/-- FB9, FB10, MEM8, MEM10, MEM11 and an access of no byte. -/
theorem test_witness_DataAccessBoundsAndWrites :
    memRead State.reset 0xFFE 2 = some [0#8, 0#8] ∧ memRead State.reset 0xFFE 3 = none ∧ memRead State.reset 0xFFFF 0 = some [] ∧
    (match memWrite State.reset 0xFFF [1#8, 2#8] with | .error .memOob => true | _ => false) = true ∧
    (match memWrite State.reset 0x04F [1#8] with | .error .fontWrite => true | _ => false) = true ∧
    (match memWrite State.reset 0x04F [] with | .ok m => m == [] | _ => false) = true ∧
    (match memWrite State.reset 0x050 [1#8] with | .ok m => m == [(0x050, 1#8)] | _ => false) = true ∧
    (match memWrite State.reset 0xFFF [1#8] with | .ok m => m == [(0xFFF, 1#8)] | _ => false) = true := by decide

theorem test_witness_ClsClearsEveryPixel : edge2 .cls { State.reset with fb := Vector.replicate 32 0xFF#64 } = true := by decide

/-- FB8, FB9, FB10, FB13. -/
theorem test_witness_DrwDrawsTheSpriteAtI :
    edge2 (.drw 0#4 1#4 0#4) { State.reset with i := 0xFFF#16 } = true ∧
    after (exec (.drw 0#4 1#4 2#4) { State.reset with i := 0xFFE#16 }) (fun t => t.mode == .run) = true ∧
    faults (exec (.drw 0#4 1#4 3#4) { State.reset with i := 0xFFE#16, pc := 0xFFE#16 }) .memOob 0xFFE#16 = true ∧
    edge2 (.drw 0#4 1#4 1#4) { State.reset with i := 0x300#16 } = true := by decide

/-- A sprite of 15 rows that wraps: its rows are 30, 31, 0 to 12 (FB12), and row 13 is not among them. -/
theorem test_witness_SpriteRowsInParallel :
    ∃ (rows : List Byte) (mask : Byte → Row), rows.length = 15 ∧
      (∀ b, mask b = (b.reverse.setWidth 64).rotateLeft (0 % 64)) ∧ (∀ r, r < rows.length → (30 + r) % 32 ≠ 13) ∧
      (drawSprite clearFrame 0 30 rows).1[12] = mask 0x01#8 ∧ (drawSprite clearFrame 0 30 rows).1[13] = 0#64 :=
  ⟨List.replicate 15 0x01#8, fun b => (b.reverse.setWidth 64).rotateLeft (0 % 64), rfl, fun _ => rfl, by decide, by decide,
    by decide⟩

/-- FB4: a draw that meets no pixel that is on, and one that does. -/
theorem test_witness_CollisionIffSomePixelTurnedOff :
    [0x0F#8].length ≤ 15 ∧ (drawSprite (clearFrame.set 0 0x0F#64) 0 0 [0x0F#8]).2 = false ∧
    (drawSprite (clearFrame.set 0 0xFF#64) 0 0 [0x01#8]).2 = true := by decide

/-- W4: the same draw twice. -/
theorem test_witness_DoubleDrawRestores :
    ∃ s t u w : State, exec (.drw 0#4 1#4 1#4) s = .next t ∧ t.mode ≠ .fault ∧ u.fb = t.fb ∧ u.getV 0#4 = s.getV 0#4 ∧
      u.getV 1#4 = s.getV 1#4 ∧ u.i = s.i ∧
      (∀ k : Nat, k < (1#4).toNat → Memory.read u.mem (s.i.toNat + k) = Memory.read s.mem (s.i.toNat + k)) ∧
      exec (.drw 0#4 1#4 1#4) u = .next w ∧ w.mode ≠ .fault ∧ w.getV 0xF#4 = 1#8 :=
  let t := nextOf (exec (.drw 0#4 1#4 1#4) State.reset)
  ⟨State.reset, t, t, nextOf (exec (.drw 0#4 1#4 1#4) t), rfl, by decide, rfl, rfl, rfl, rfl, fun _ _ => rfl, rfl, by decide,
    by decide⟩

theorem test_witness_RndMasksTheDraw : edge2 (.rnd 1#4 0x0F#8) State.reset = true := by decide

/-- A hit, a miss and the empty queue; KEY7: a fault removes nothing. -/
theorem test_witness_KeySkipsConsumeTheHeadEvent :
    (∃ k, [3#4].head? = some k ∧ k.toNat = ((withV [(1#4, 3#8)]).getV 1#4).toNat) ∧
    edge4 (.skp 1#4) { withV [(1#4, 3#8)] with kq := [3#4] } = true ∧
    edge2 (.skp 1#4) { withV [(1#4, 3#8)] with kq := [4#4] } = true ∧ edge2 (.skp 1#4) State.reset = true ∧
    edge2 (.sknp 1#4) { withV [(1#4, 3#8)] with kq := [3#4] } = true ∧
    edge4 (.sknp 1#4) { withV [(1#4, 3#8)] with kq := [4#4] } = true ∧ edge4 (.sknp 1#4) State.reset = true ∧
    after (exec (.skp 1#4) { withV [(1#4, 3#8)] with kq := [3#4], pc := 0xFFC#16 }) (fun t => t.kq == [3#4]) = true :=
  ⟨⟨3#4, rfl, rfl⟩, by decide⟩

/-- FSM7 at both sides of the limit, and the empty queue, also at a pc past the limit. -/
theorem test_witness_LdVxKTakesAKeyOrWaits :
    edge2 (.ldVxK 5#4) { State.reset with kq := [0xA#4, 2#4] } = true ∧ (atPc 0xFFE#16).kq = [] ∧
    after (exec (.ldVxK 5#4) (atPc 0xFFE#16)) (fun t => t.mode == .keyWait && t.pc == 0xFFE#16) = true := by decide

theorem test_witness_TimerReadsAndWrites :
    edge2 (.ldVxDt 3#4) State.reset = true ∧ edge2 (.ldDtVx 0#4) State.reset = true ∧ edge2 (.ldStVx 0#4) State.reset = true := by
  decide

/-- TMR5, FSM8, TMR7, FSM9. -/
theorem test_witness_TickDecrementsBothTimers :
    (State.reset.cancel = false ∧ State.reset.mode = .run) ∧
    (tick { State.reset with mode := .keyWait, dt := 5#8 }).dt = 4#8 ∧ (setCancel State.reset).cancel = true ∧
    (tick { State.reset with cancel := true, dt := 5#8 }).dt = 5#8 ∧
    (tick { State.reset with mode := .terminated, dt := 5#8 }).dt = 5#8 ∧
    (tick { State.reset with mode := .fault, st := 5#8 }).st = 5#8 := by decide

/-- TMR6 at the limit of pc: fewer ticks than the timer's value, and more. -/
theorem test_witness_FX07ReadsWrittenValueLessTicks :
    State.reset.cancel = false ∧ State.reset.mode = .run ∧ (atPc 0xFFD#16).pc.toNat + 2 ≤ (atPc 0xFFD#16).limit ∧
    after (exec (.ldVxDt 3#4) (tick (tick { atPc 0xFFD#16 with dt := 3#8 }))) (fun t => t.getV 3#4 == 1#8) = true ∧
    after (exec (.ldVxDt 3#4) (tick (tick { atPc 0xFFD#16 with dt := 1#8 }))) (fun t => t.getV 3#4 == 0#8) = true := by decide

/-- FX65 with x = 0xE leaves VF; a load writes its own register only. -/
theorem test_witness_OnlyListedRegistersAreWritten :
    (∃ t, exec (.ldVxMem 0xE#4) State.reset = .next t) ∧ (Instr.ldVxMem 0xE#4).writesV 0xF#4 = false ∧
    (Instr.ldVxMem 0xE#4).writesV 0xE#4 = true ∧ (Instr.addReg 1#4 2#4).writesV 0xF#4 = true ∧
    (Instr.addImm 1#4 2#8).writesV 0xF#4 = false := ⟨⟨_, rfl⟩, by decide⟩

/-- 8124 reads V1 and V2 only: all other registers may differ. -/
theorem test_witness_RegistersNotReadDoNotMatter :
    ∃ (s t : State) (v : Regs), s.mode = .run ∧
      (∀ k : Nibble, (Instr.addReg 1#4 2#4).readsV k = true → v[k.toNat] = s.getV k) ∧
      exec (.addReg 1#4 2#4) s = .next t ∧ t.mode = .run ∧ v ≠ s.v :=
  ⟨withV [(1#4, 5#8)], nextOf (exec (.addReg 1#4 2#4) (withV [(1#4, 5#8)])),
    (Vector.replicate 16 0xAA#8).set 1 5#8 |>.set 2 0#8, rfl, by decide, rfl, by decide, by decide⟩

/-- The addresses next to those that FX33 and FX55 store to. -/
theorem test_witness_OnlyStoredBytesChange :
    (∃ t, exec (.ldB 4#4) { State.reset with i := 0x300#16 } = .next t) ∧ (Instr.ldB 4#4).storesAt 0x300 0x2FF = false ∧
    (Instr.ldB 4#4).storesAt 0x300 0x303 = false ∧ (Instr.ldB 4#4).storesAt 0x300 0x302 = true ∧
    (Instr.ldMemVx 5#4).storesAt 0x300 0x306 = false ∧ (Instr.ldMemVx 5#4).storesAt 0x300 0x305 = true ∧
    (Instr.ldVxMem 5#4).storesAt 0x300 0x300 = false := ⟨⟨_, rfl⟩, by decide⟩

/-- One instruction outside every list of the statement. -/
theorem test_witness_OtherStateIsWrittenAsListed :
    (∃ t, exec (.ldImm 1#4 2#8) State.reset = .next t) ∧ (Instr.ldImm 1#4 2#8).writesI = false ∧
    (Instr.ldImm 1#4 2#8).writesFb = false ∧ (Instr.ldImm 1#4 2#8).usesStack = false ∧
    (Instr.ldImm 1#4 2#8).readsKeys = false ∧ (∀ x, Instr.ldImm 1#4 2#8 ≠ .ldDtVx x) ∧ (∀ x, Instr.ldImm 1#4 2#8 ≠ .ldStVx x) ∧
    (∀ x, Instr.ldImm 1#4 2#8 ≠ .ldVxK x) ∧ (∀ x kk, Instr.ldImm 1#4 2#8 ≠ .rnd x kk) ∧
    (∀ x y, Instr.ldImm 1#4 2#8 ≠ .shr x y) ∧ (∀ x y, Instr.ldImm 1#4 2#8 ≠ .shl x y) :=
  ⟨⟨_, rfl⟩, rfl, rfl, rfl, rfl, by simp, by simp, by simp, by simp, by simp, by simp⟩

/-- ALU1's word at the reset pc, with an empty agenda and with one that names the loop. -/
theorem test_witness_StepRunsTheDecodedInstruction :
    (∃ (s t : State), s.mode = .run ∧ s.cancel = false ∧ fetch s = some 0x6A3C#16 ∧
      decode s.params 0x6A3C#16 = .instr (.ldImm 0xA#4 0x3C#8) ∧ exec (.ldImm 0xA#4 0x3C#8) s = .next t ∧ s.agenda = []) ∧
    after (step { poke State.reset 0x200 [0x6A#8, 0x3C#8] with agenda := [.loop, .tick] })
      (fun t => t.getV 0xA#4 == 0x3C#8 && t.agenda == [.tick] && t.frames.length == 1) = true :=
  ⟨⟨poke State.reset 0x200 [0x6A#8, 0x3C#8], nextOf (exec (.ldImm 0xA#4 0x3C#8) (poke State.reset 0x200 [0x6A#8, 0x3C#8])),
    rfl, rfl, by decide, by decide, rfl, rfl⟩, by decide⟩

/-- DEC1, DEC2, DEC3. -/
theorem test_witness_FetchIsBigEndianAndBounded :
    fetch (poke State.reset 0x200 [0x12#8, 0x34#8]) = some 0x1234#16 ∧
    fetch (poke (atPc 0xFFE#16) 0xFFE [0x12#8, 0x34#8]) = some 0x1234#16 ∧
    (atPc 0xFFF#16).mode = .run ∧ (atPc 0xFFF#16).cancel = false ∧
    faults (loopStep (atPc 0xFFF#16)) .fetchOob 0xFFF#16 = true := by decide

/-- FSM1; DEC12; DEC7 under `refuse_ambiguous`. -/
theorem test_witness_CycleStopsBeforeExecute :
    ∃ s : State, s.mode = .run ∧ s.cancel = false ∧ fetch s = some 0xF030#16 ∧ decode s.params 0xF030#16 = .illegal ∧
    ∃ u : State, u.mode = .run ∧ u.cancel = false ∧ fetch u = some 0x01E0#16 ∧ decode u.params 0x01E0#16 = .ambiguous ∧
    (setCancel s).mode = .run ∧ (setCancel s).cancel = true :=
  ⟨poke State.reset 0x200 [0xF0#8, 0x30#8], rfl, rfl, by decide, by decide,
    { poke State.reset 0x200 [0x01#8, 0xE0#8] with params := ⟨.space12, .strict, .refuseAmbiguous⟩ }, rfl, rfl, by decide,
    by decide, rfl, rfl⟩

/-- The wait that FSM2 leaves, with KW_REG = 3. -/
def waiting (pc : Word) (kq : List Nibble) (cancel : Bool) : State :=
  { poke (atPc pc) pc.toNat [0xF3#8, 0x0A#8] with mode := .keyWait, kwReg := 3#4, kq := kq, cancel := cancel }

/-- FSM3, FSM4, FSM6, and the two enabled together (FSM5). -/
theorem test_witness_KeyWaitCompletesOrCancels :
    (waiting 0x200#16 [7#4] true).mode = .keyWait ∧ (waiting 0x200#16 [7#4] true).cancel = true ∧
    (waiting 0x200#16 [7#4] true).kq = [7#4] ∧
    after (loopStep (waiting 0x200#16 [7#4] false))
      (fun t => t.getV 3#4 == 7#8 && t.pc == 0x202#16 && t.mode == .run && t.kq == [] && t.frames.length == 1) = true ∧
    after (loopStep (waiting 0x200#16 [] true)) (fun t => t.mode == .terminated && t.pc == 0x200#16) = true ∧
    after (loopStep (waiting 0xFFE#16 [3#4] false))
      (fun t => t.statusOut == (.fault, .pcOverflow) && t.kq == [3#4] && t.getV 3#4 == 0#8) = true := by decide

/-- FSM9. -/
theorem test_witness_TerminalStatesAreFinal :
    ({ State.reset with mode := .terminated } : State).mode = .terminated ∧
    after (step { State.reset with mode := .fault, fcode := .memOob, agenda := [.loop] })
      (fun t => t.statusOut == (.fault, .memOob)) = true := by decide

/-- A fault out of RUN, one out of KEY_WAIT, and a step of another agent in FAULT. -/
theorem test_witness_FaultsArePrecise :
    (∃ t, loopStep (atPc 0xFFF#16) = .next t ∧ t.mode = .fault) ∧
    (∃ t, loopStep (waiting 0xFFE#16 [3#4] false) = .next t ∧ t.mode = .fault) ∧
    ∃ t, step { State.reset with mode := .fault, fcode := .memOob, agenda := [.key 5#4] } = .next t :=
  ⟨⟨_, rfl, rfl⟩, ⟨_, rfl, rfl⟩, ⟨_, rfl⟩⟩

/-- Each transition of spec/40_cycle_fsm.md R141 that changes MODE is taken by some step. -/
theorem test_witness_ModeTransitions :
    after (step (setCancel State.reset)) (fun t => t.mode == .terminated) = true ∧
    after (run State.reset 0xF30A) (fun t => t.mode == .keyWait) = true ∧
    after (step (atPc 0xFFF#16)) (fun t => t.mode == .fault) = true ∧
    after (step (waiting 0x200#16 [7#4] false)) (fun t => t.mode == .run) = true ∧
    after (step (waiting 0xFFE#16 [3#4] false)) (fun t => t.mode == .fault) = true ∧
    after (step (waiting 0x200#16 [] true)) (fun t => t.mode == .terminated) = true := by decide

/-- A cycle that ends in RUN and one that does not. -/
theorem test_witness_OneFramePerCompletedInstruction :
    after (loopStep State.reset) (fun t => t.mode == .run && t.frames == [State.reset.fb]) = true ∧
    after (loopStep (atPc 0xFFF#16)) (fun t => t.mode == .fault && t.frames == []) = true ∧
    after (loopStep (waiting 0x200#16 [] false)) (fun t => t.mode == .keyWait && t.frames == []) = true := by decide

/-- The agenda's head for each agent, and the empty agenda. -/
theorem test_witness_AgendaSchedulesTheAgents :
    State.reset.agenda = [] ∧ State.reset.mode = .run ∧
    after (step { State.reset with agenda := [.key 7#4, .loop] }) (fun t => t.kq == [7#4] && t.agenda == [.loop]) = true ∧
    after (step { State.reset with agenda := [.cancel] }) (fun t => t.cancel && t.mode == .run) = true ∧
    after (step { State.reset with agenda := [.takeFrame], frames := [clearFrame] }) (fun t => t.frames == []) = true ∧
    after (step { State.reset with agenda := [.dropFrame 1], frames := [clearFrame, clearFrame] })
      (fun t => t.frames == [clearFrame]) = true ∧
    after (step { State.reset with agenda := [.tick], dt := 2#8 }) (fun t => t.dt == 1#8 && t.pc == 0x200#16) = true ∧
    after (step { State.reset with agenda := [.loop] }) (fun t => t.pc == 0x202#16 && t.agenda == []) = true := by decide

/-- A step that pushes, one that removes, one that cancels and one after the cancellation. -/
theorem test_witness_CancelStaysAndKeysAreFifo :
    (∃ t, step { State.reset with agenda := [.key 7#4], kq := [1#4] } = .next t ∧ t.kq = [1#4, 7#4]) ∧
    (∃ t, step (waiting 0x200#16 [7#4, 1#4] false) = .next t ∧ t.kq = [1#4]) ∧
    (∃ t, step { State.reset with agenda := [.cancel] } = .next t ∧ t.cancel = true) ∧
    ∃ t, step (setCancel State.reset) = .next t ∧ t.cancel = true :=
  ⟨⟨_, rfl, rfl⟩, ⟨_, rfl, rfl⟩, ⟨_, rfl, rfl⟩, ⟨_, rfl, rfl⟩⟩

/-- A state with bytes in memory, a full stack and I at the limit, and a waiting state; both have a step. -/
theorem test_witness_StepKeepsTheInvariant :
    (∃ s t : State, s.Inv ∧ s.sp = 16 ∧ s.i = 0xFFF#16 ∧ s.mem ≠ [] ∧ step s = .next t) ∧
    ∃ s t : State, s.Inv ∧ s.mode = .keyWait ∧ step s = .next t := by
  refine ⟨⟨{ poke (atPc 0x300#16) 0x300 [0x13#8] with sp := 16, i := 0xFFF#16 }, _, ?_, rfl, rfl, by decide, rfl⟩,
    ⟨waiting 0xFFE#16 [3#4] false, _, ?_, rfl, rfl⟩⟩
  · exact ⟨by decide, by decide, by decide, by decide, by decide, by decide⟩
  · exact ⟨by decide, by decide, by decide, by decide, by decide, fun _ => ⟨0xF30A#16, by decide, by decide⟩⟩

/-- An image that fills memory and one that is too large (RST2, RST3), from an I at the limit. -/
theorem test_witness_BootMeetsTheInvariant :
    ∃ l m : Launch, Memory.wf l.mem ∧ l.i.toNat = Config.limitOf l.params.addrLimit ∧ l.rom.length = 3584 ∧
      Memory.wf m.mem ∧ m.i.toNat ≤ Config.limitOf m.params.addrLimit ∧ m.rom.length = 3585 :=
  ⟨{ defaultLaunch with i := 0xFFF#16, rom := List.replicate 3584 0x12#8 },
    { defaultLaunch with rom := List.replicate 3585 0x12#8 }, by decide, by decide, List.length_replicate, by decide, by decide,
    List.length_replicate⟩

/-- The font's last byte and the byte after it, across a store beside them (MEM11). -/
theorem test_witness_FontIsNeverMutated :
    0x04F ≤ 0x04F ∧ after (run { State.reset with i := 0x050#16 } 0xF033)
      (fun t => Memory.read t.mem 0x04F == 0x80#8 && Memory.read State.reset.mem 0x04F == 0x80#8) = true := by decide

/-- RST1, RST2 and RST3: a small image, the longest one and one that is too large. -/
theorem test_witness_ResetLoadsFontAndRom :
    ([0x12#8, 0x00#8].length ≤ 3584 ∧ (boot { defaultLaunch with rom := [0x12#8, 0x00#8] }).pc = 0x200#16 ∧
      peek (boot { defaultLaunch with rom := [0x12#8, 0x00#8] }) 0x200 2 = [0x12#8, 0x00#8] ∧
      peek (boot { defaultLaunch with rom := [0x12#8, 0x00#8] }) 0x000 5 = [0xF0#8, 0x90#8, 0x90#8, 0x90#8, 0xF0#8]) ∧
    (List.replicate 3584 0x12#8).length ≤ 3584 ∧ 3584 < (List.replicate 3585 0x12#8).length ∧
    (boot { defaultLaunch with rom := List.replicate 3585 0x12#8 }).statusOut = (.fault, .romTooLarge) ∧
    Memory.read (boot { defaultLaunch with rom := List.replicate 3585 0x12#8 }).mem 0x200 = 0x00#8 := by
  decide +kernel

/-- Log entry 13: `State.reset` is the reset of the default launch. -/
theorem test_reset_is_boot : boot defaultLaunch = State.reset := by decide +kernel

end Sys2Proof.Tests
end

section
/-! Statements of the family `10_state`: the machine's invariant. -/

namespace Sys2Proof.Machine

/-! ## The invariant under the updates that a step is made of -/

/-- The state with every field that the invariant does not speak of cleared. -/
def State.invView (s : State) : State :=
  { s with v := State.reset.v, dt := 0, st := 0, fb := clearFrame, kq := [], cancel := false, frames := [],
           draws := 0, agenda := [] }

/-- The invariant depends on the fields of `invView` only. -/
theorem State.Inv.of_view {s t : State} (h : s.Inv) (e : t.invView = s.invView) : t.Inv := by
  have lift : s.invView.Inv := ⟨h.mem_wf, h.pc_le, h.i_le, h.stack_le, h.fcode_iff, h.key_wait⟩
  rw [← e] at lift
  exact ⟨lift.mem_wf, lift.pc_le, lift.i_le, lift.stack_le, lift.fcode_iff, lift.key_wait⟩

theorem State.Inv.fcode_none {s : State} (h : s.Inv) (hm : s.mode ≠ .fault) : s.fcode = .none := by
  by_contra hf
  exact hm (h.fcode_iff.mp hf)

/-- A state in RUN that meets the bounds meets the invariant: its clause on KEY_WAIT says nothing there. -/
theorem State.Inv.of_run {s : State} (hr : s.mode = .run) (hf : s.fcode = .none) (mem_wf : Memory.wf s.mem)
    (pc_le : s.pc.toNat ≤ s.limit) (i_le : s.i.toNat ≤ s.limit)
    (stack_le : ∀ k : Fin 16, k.val < s.sp.val → (s.stack[k]).toNat ≤ s.limit) : s.Inv :=
  ⟨mem_wf, pc_le, i_le, stack_le, by simp [hr, hf], by simp [hr]⟩

section Run

variable {s : State} (h : s.Inv) (hr : s.mode = .run)
include h hr

theorem State.Inv.fcode_none_of_run : s.fcode = .none := h.fcode_none (by simp [hr])

theorem State.Inv.setPc {w : Word} (hw : w.toNat ≤ s.limit) : State.Inv { s with pc := w } :=
  .of_run hr (h.fcode_none_of_run hr) h.mem_wf hw h.i_le h.stack_le

theorem State.Inv.setI {j : Word} (hj : j.toNat ≤ s.limit) : State.Inv { s with i := j } :=
  .of_run hr (h.fcode_none_of_run hr) h.mem_wf h.pc_le hj h.stack_le

theorem State.Inv.writeList (a : Nat) (bs : List Byte) :
    State.Inv { s with mem := Memory.writeList s.mem a bs } :=
  .of_run hr (h.fcode_none_of_run hr) (wf_writeList bs a h.mem_wf) h.pc_le h.i_le h.stack_le

/-- Popping leaves fewer entries to bound (spec/10_state.md R41). -/
theorem State.Inv.setSp {n : Fin 17} (hn : n ≤ s.sp) : State.Inv { s with sp := n } :=
  .of_run hr (h.fcode_none_of_run hr) h.mem_wf h.pc_le h.i_le fun k hk => h.stack_le k (Nat.lt_of_lt_of_le hk hn)

/-- Pushing a checked address keeps every entry below SP checked (spec/10_state.md R40). -/
theorem State.Inv.push {k : Fin 16} {w : Word} (hk : s.sp = k.castSucc) (hw : w.toNat ≤ s.limit) :
    State.Inv { s with stack := s.stack.set k w, sp := k.succ } := by
  refine .of_run hr (h.fcode_none_of_run hr) h.mem_wf h.pc_le h.i_le fun j (hj : j.val < k.val + 1) => ?_
  show ((s.stack.set k.val w)[j.val]).toNat ≤ s.limit
  rw [Vector.getElem_set]
  split
  · exact hw
  · next hne => exact h.stack_le j (by rw [hk]; show j.val < k.val; omega)

theorem State.Inv.startWait {x : Nibble} {w : Word} (hf : fetch s = some w)
    (hd : decode s.params w = .instr (.ldVxK x)) : State.Inv { s with kwReg := x, mode := .keyWait } :=
  ⟨h.mem_wf, h.pc_le, h.i_le, h.stack_le, by simp [h.fcode_none_of_run hr], fun _ => ⟨w, hf, hd⟩⟩

end Run

theorem State.Inv.raiseFault {s : State} (h : s.Inv) {code : FaultCode} (hc : code ≠ .none) :
    (raiseFault code s).Inv :=
  ⟨h.mem_wf, h.pc_le, h.i_le, h.stack_le, by simp [hc], by simp⟩

theorem State.Inv.terminate {s : State} (h : s.Inv) (hm : s.mode ≠ .fault) :
    State.Inv { s with mode := .terminated } :=
  ⟨h.mem_wf, h.pc_le, h.i_le, h.stack_le, by simp [h.fcode_none hm], by simp⟩

/-! ## The invariant under the end of an instruction -/

/-- An instruction's writes `u` of `s` in RUN, then a checked pc. -/
theorem Advanced.inv {s u t : State} (h : Advanced s u t) (hu : u.Inv) (hr : u.mode = .run)
    (hl : u.limit = s.limit) : t.Inv := by
  obtain ⟨w, hw, rfl⟩ := h
  exact hu.setPc hr (hw.trans_eq hl.symm)

/-- An instruction's writes `u` of `s` in RUN, then a checked I and a checked pc. -/
theorem AdvancedWithI.inv {s u t : State} (h : AdvancedWithI s u t) (hu : u.Inv) (hr : u.mode = .run)
    (hl : u.limit = s.limit) : t.Inv := by
  obtain ⟨w, j, hw, hj, rfl⟩ := h
  exact (hu.setI hr (hj.trans_eq hl.symm)).setPc hr (hw.trans_eq hl.symm)

/-- A twelve-bit address is within every limit. -/
theorem zext16_le_limit (nnn : Addr12) (s : State) : (zext16 nnn).toNat ≤ s.limit := by
  have hl := (limit_bounds s).1
  have hn := nnn.isLt
  rw [zext16, BitVec.toNat_setWidth]
  omega

/-- An instruction that completes in RUN keeps the invariant; FX0A needs to stand at pc, where it may wait. -/
theorem completes_inv {i : Instr} {s t : State} {w : Word} (hs : s.Inv) (hr : s.mode = .run)
    (hf : fetch s = some w) (hd : decode s.params w = .instr i) (h : Completes i s t) : t.Inv := by
  cases i with
  | ret =>
    obtain ⟨k, hk, rfl⟩ := h
    have hpc := hs.stack_le k (by rw [hk]; exact Nat.lt_succ_self k.val)
    have hsp : k.castSucc ≤ s.sp := by rw [hk]; exact Nat.le_succ k.val
    exact (hs.setSp hr hsp).setPc hr hpc
  | call nnn =>
    obtain ⟨k, ret, hret, hk, rfl⟩ := h
    exact (hs.push hr hk hret).setPc hr (zext16_le_limit nnn s)
  | shr x | shl x =>
    obtain ⟨v, d, e⟩ := shiftWrites_frame s x _ _
    rw [Completes, e] at h
    exact Advanced.inv h (hs.of_view rfl) hr rfl
  | ldI nnn => exact Advanced.inv h (hs.setI hr (zext16_le_limit nnn s)) hr rfl
  | ldVxK x =>
    rcases h with ⟨-, rfl⟩ | ⟨k, rest, -, h⟩
    · exact hs.startWait hr hf hd
    · exact Advanced.inv h (hs.of_view rfl) hr rfl
  | addI x | ldF x => exact AdvancedWithI.inv h hs hr rfl
  | ldB x => exact Advanced.inv h.2 (hs.writeList hr _ _) hr rfl
  | ldMemVx x => exact AdvancedWithI.inv h.2 (hs.writeList hr _ _) hr rfl
  | ldVxMem x => exact AdvancedWithI.inv h (hs.of_view rfl) hr rfl
  | _ => exact Advanced.inv h (hs.of_view rfl) hr rfl

/-! ## The invariant under the agents' steps -/

theorem runCycle_inv {s t : State} (hs : s.Inv) (hr : s.mode = .run) (h : runCycle s = .next t) : t.Inv := by
  rcases runCycle_next h with ⟨-, rfl⟩ | ⟨-, (rfl | rfl) | ⟨w, i, u, hf, hd, hu, rfl⟩⟩
  · exact hs.terminate (by simp [hr])
  · exact hs.raiseFault (by decide)
  · exact hs.raiseFault (by decide)
  · have hui : u.Inv := by
      rcases exec_next hu with ⟨code, hc, rfl⟩ | hc
      · exact hs.raiseFault hc
      · exact completes_inv hs hr hf hd hc
    split
    · exact hui.of_view rfl
    · exact hui

theorem keyWaitStep_inv {s t : State} (hs : s.Inv) (hm : s.mode = .keyWait) (h : keyWaitStep s = .next t) :
    t.Inv := by
  have hnf : s.mode ≠ .fault := by simp [hm]
  rcases keyWaitStep_next h with ⟨-, rfl⟩ | ⟨-, -, rfl⟩ | ⟨k, rest, -, ⟨-, rfl⟩ | ⟨hpc, rfl⟩⟩
  · exact hs.terminate hnf
  · exact hs
  · exact hs.raiseFault (by decide)
  · have hl := (limit_bounds s).2
    have hle : (s.pc + 2#16).toNat ≤ s.limit := by
      rw [BitVec.toNat_add]
      simp only [BitVec.toNat_ofNat]
      omega
    exact .of_run rfl (hs.fcode_none hnf) hs.mem_wf hle hs.i_le hs.stack_le

theorem loopStep_inv {s t : State} (hs : s.Inv) (h : loopStep s = .next t) : t.Inv := by
  rcases loopStep_next h with ⟨hm, h⟩ | ⟨hm, h⟩
  · exact runCycle_inv hs hm h
  · exact keyWaitStep_inv hs hm h

/-- The loop's move is the loop's step, or is passed over (spec/40_cycle_fsm.md R140). -/
theorem agentStep_loop_next {s t : State} (h : agentStep .loop s = .next t) : loopStep s = .next t ∨ t = s := by
  simp only [agentStep] at h
  split at h
  · exact .inl h
  · cases h
    exact .inr rfl

theorem agentStep_inv {m : Move} {s t : State} (hs : s.Inv) (h : agentStep m s = .next t) : t.Inv := by
  cases m with
  | loop =>
    rcases agentStep_loop_next h with h | rfl
    · exact loopStep_inv hs h
    · exact hs
  | tick =>
    cases h
    rcases tick_cases s with e | e <;> rw [e]
    · exact hs
    · exact hs.of_view rfl
  | key | cancel | takeFrame | dropFrame =>
    cases h
    exact hs.of_view rfl

/-- Settles O55: each agent's step keeps the invariant, and using up a move of the agenda does not touch it. -/
theorem stepKeepsTheInvariant : Obligations.StepKeepsTheInvariant := by
  intro s t hs h
  rcases nextStep_next h with ⟨-, h⟩ | ⟨m, rest, -, h⟩
  · exact loopStep_inv hs h
  · exact agentStep_inv (hs.of_view (t := { s with agenda := rest }) rfl) h

/-- Settles O56: pc is at the entry point, I is 0, and memory and the stack are empty. -/
theorem resetMeetsTheInvariant : Obligations.ResetMeetsTheInvariant :=
  .of_run rfl rfl wf_reset (by decide) (by decide) fun _ hk => absurd hk (Nat.not_lt_zero _)

end Sys2Proof.Machine
/-! Statements of the family `10_state`: what an instruction writes. -/

namespace Sys2Proof.Machine

/-! ## General registers -/

theorem Advanced.getV_eq {s u t : State} (h : Advanced s u t) (k : Nibble) : t.getV k = u.getV k := by
  obtain ⟨w, -, rfl⟩ := h
  rfl

theorem AdvancedWithI.getV_eq {s u t : State} (h : AdvancedWithI s u t) (k : Nibble) : t.getV k = u.getV k := by
  obtain ⟨w, j, -, -, rfl⟩ := h
  rfl

theorem resultThenFlag_getV_other (s : State) {x k : Nibble} (result flag : Byte) (hx : k ≠ x) (hf : k ≠ vF) :
    (resultThenFlag s x result flag).getV k = s.getV k := by
  rw [resultThenFlag, getV_setV_other _ _ hf, getV_setV_other _ _ hx]

theorem shiftWrites_getV_other (s : State) {x k : Nibble} (shift : Byte → Byte) (f : Byte) (hx : k ≠ x)
    (hf : k ≠ vF) : (shiftWrites s x shift f).getV k = s.getV k := by
  by_cases h : x = vF
  · subst h
    rw [shiftWrites_vF]
    exact getV_setV_other _ _ hf
  · rw [shiftWrites_other _ _ _ h, getV_setV_other _ _ hx, getV_setV_other _ _ hf]

theorem drawWrites_getV_other (s : State) (x y : Nibble) {k : Nibble} (rows : List Byte) (hf : k ≠ vF) :
    (drawWrites s x y rows).getV k = s.getV k := getV_setV_other _ _ hf

theorem loadV_getV_above (s : State) {bs : List Byte} {k : Nibble} (hk : bs.length ≤ k.toNat) :
    (s.loadV bs).getV k = s.getV k := by
  simp only [State.getV, loadV_v, setFrom_get]
  exact dif_neg (by omega)

/-- The writes column of spec/10_state.md R32, for an instruction that completes. -/
theorem completes_getV {i : Instr} {s t : State} {k : Nibble} (h : Completes i s t) (hk : i.writesV k = false) :
    t.getV k = s.getV k := by
  cases i with
  | ldImm x | addImm x | ldReg x | orReg x | andReg x | xorReg x | rnd x | ldVxDt x =>
    have hx : k ≠ x := by simpa [Instr.writesV] using hk
    exact (Advanced.getV_eq h k).trans (getV_setV_other _ _ hx)
  | addReg x | sub x | subn x =>
    have hx : k ≠ x ∧ k ≠ vF := by simpa [Instr.writesV, vF] using hk
    exact (Advanced.getV_eq h k).trans (resultThenFlag_getV_other _ _ _ hx.1 hx.2)
  | shr x | shl x =>
    have hx : k ≠ x ∧ k ≠ vF := by simpa [Instr.writesV, vF] using hk
    exact (Advanced.getV_eq h k).trans (shiftWrites_getV_other _ _ _ hx.1 hx.2)
  | drw x y n =>
    have hf : k ≠ vF := by simpa [Instr.writesV, vF] using hk
    exact (Advanced.getV_eq h k).trans (drawWrites_getV_other _ _ _ _ hf)
  | ldVxK x =>
    have hx : k ≠ x := by simpa [Instr.writesV] using hk
    rcases h with ⟨-, rfl⟩ | ⟨e, rest, -, h⟩
    · rfl
    · exact (h.getV_eq k).trans (getV_setV_other _ _ hx)
  | ldVxMem x =>
    have hx : x.toNat < k.toNat := by simpa [Instr.writesV] using hk
    exact (AdvancedWithI.getV_eq h k).trans (loadV_getV_above _ (by simpa using hx))
  | ret =>
    obtain ⟨_, -, rfl⟩ := h
    rfl
  | call =>
    obtain ⟨_, _, -, -, rfl⟩ := h
    rfl
  | addI | ldF => exact AdvancedWithI.getV_eq h k
  | ldMemVx => exact h.2.getV_eq k
  | ldB => exact h.2.getV_eq k
  | _ => exact Advanced.getV_eq h k

/-- Settles O41: a fault writes no register, and a completed instruction those listed only. -/
theorem onlyListedRegistersAreWritten : Obligations.OnlyListedRegistersAreWritten := by
  intro i s t k h hk
  rcases exec_next h with ⟨code, -, rfl⟩ | hc
  · rfl
  · exact completes_getV hc hk

/-! ## The rest of the state -/

/-- What an instruction that completes keeps of the state other than the registers, pc and memory
(spec/10_state.md R37 to R50). -/
theorem completes_frame {i : Instr} {s t : State} (h : Completes i s t) :
    (i.writesI = false → t.i = s.i) ∧ (i.writesFb = false → t.fb = s.fb) ∧
    (i.usesStack = false → t.stack = s.stack ∧ t.sp = s.sp) ∧ (i.readsKeys = false → t.kq = s.kq) ∧
    ((∀ x, i ≠ .ldDtVx x) → t.dt = s.dt) ∧ ((∀ x, i ≠ .ldStVx x) → t.st = s.st) ∧
    ((∀ x, i ≠ .ldVxK x) → t.kwReg = s.kwReg) ∧
    ((∀ x kk, i ≠ .rnd x kk) → (∀ x y, i ≠ .shr x y) → (∀ x y, i ≠ .shl x y) → t.draws = s.draws) ∧
    t.cancel = s.cancel ∧ t.frames = s.frames ∧ t.params = s.params ∧ t.agenda = s.agenda := by
  cases i with
  | ret =>
    obtain ⟨_, -, rfl⟩ := h
    simp [Instr.usesStack]
  | call =>
    obtain ⟨_, _, -, -, rfl⟩ := h
    simp [Instr.usesStack]
  | shr x | shl x =>
    obtain ⟨v, d, e⟩ := shiftWrites_frame s x _ _
    rw [Completes, e] at h
    obtain ⟨_, -, rfl⟩ := h
    simp
  | ldVxK x =>
    rcases h with ⟨-, rfl⟩ | ⟨_, _, -, _, -, rfl⟩ <;> simp [Instr.readsKeys]
  | addI | ldF | ldVxMem =>
    obtain ⟨_, _, -, -, rfl⟩ := h
    simp [Instr.writesI]
  | ldMemVx =>
    obtain ⟨-, _, _, -, -, rfl⟩ := h
    simp [Instr.writesI]
  | ldB =>
    obtain ⟨-, _, -, rfl⟩ := h
    simp
  | _ =>
    obtain ⟨_, -, rfl⟩ := h
    simp [Instr.writesI, Instr.writesFb, Instr.readsKeys, resultThenFlag, drawWrites]

/-- Settles O44: a fault changes MODE and FCODE only, and a completed instruction what the rules list. -/
theorem otherStateIsWrittenAsListed : Obligations.OtherStateIsWrittenAsListed := by
  intro i s t h
  rcases exec_next h with ⟨code, -, rfl⟩ | hc
  · simp
  · exact completes_frame hc

/-! ## CANCEL and the key queue along the steps -/

/-- The queue `kq'` is `kq`, or `kq` without its head (spec/10_state.md R46). -/
def SameOrTail (kq kq' : List Nibble) : Prop := kq' = kq ∨ ∃ k, kq = k :: kq'

theorem sameOrTail_tail (kq : List Nibble) : SameOrTail kq kq.tail := by
  cases kq with
  | nil => exact .inl rfl
  | cons k rest => exact .inr ⟨k, rfl⟩

theorem completes_kq {i : Instr} {s t : State} (h : Completes i s t) : SameOrTail s.kq t.kq := by
  by_cases hi : i.readsKeys = true
  · cases i with
    | skp | sknp =>
      obtain ⟨_, -, rfl⟩ := h
      exact sameOrTail_tail s.kq
    | ldVxK x =>
      rcases h with ⟨-, rfl⟩ | ⟨k, rest, hk, _, -, rfl⟩
      · exact .inl rfl
      · exact .inr ⟨k, hk⟩
    | _ => cases hi
  · obtain ⟨-, -, -, hkq, -⟩ := completes_frame h
    exact .inl (hkq (by simpa using hi))

/-- What the loop's step does to CANCEL, the key queue and the launch parameters. -/
def LoopKeeps (s t : State) : Prop := t.cancel = s.cancel ∧ SameOrTail s.kq t.kq ∧ t.params = s.params

theorem loopKeeps_refl (s : State) : LoopKeeps s s := ⟨rfl, .inl rfl, rfl⟩

theorem exec_loopKeeps {i : Instr} {s t : State} (h : exec i s = .next t) : LoopKeeps s t := by
  rcases exec_next h with ⟨code, -, rfl⟩ | hc
  · exact loopKeeps_refl s
  · obtain ⟨-, -, -, -, -, -, -, -, hcancel, -, hparams, -⟩ := completes_frame hc
    exact ⟨hcancel, completes_kq hc, hparams⟩

theorem loopStep_loopKeeps {s t : State} (h : loopStep s = .next t) : LoopKeeps s t := by
  rcases loopStep_next h with ⟨-, h⟩ | ⟨-, h⟩
  · rcases runCycle_next h with ⟨-, rfl⟩ | ⟨-, (rfl | rfl) | ⟨w, i, u, -, -, hu, rfl⟩⟩
    · exact loopKeeps_refl s
    · exact loopKeeps_refl s
    · exact loopKeeps_refl s
    · have hk := exec_loopKeeps hu
      split
      · exact hk
      · exact hk
  · rcases keyWaitStep_next h with ⟨-, rfl⟩ | ⟨-, -, rfl⟩ | ⟨k, rest, hk, ⟨-, rfl⟩ | ⟨-, rfl⟩⟩
    · exact loopKeeps_refl s
    · exact loopKeeps_refl _
    · exact loopKeeps_refl s
    · exact ⟨rfl, .inr ⟨k, hk⟩, rfl⟩

/-- Of the agents' moves, only the host's two touch CANCEL or add to the key queue (spec/10_state.md R71, R72). -/
theorem agentStep_keeps {m : Move} {s t : State} (h : agentStep m s = .next t) :
    (m = .cancel ∧ t = setCancel s) ∨ (∃ k, m = .key k ∧ t = pushKey k s) ∨ LoopKeeps s t := by
  cases m with
  | loop =>
    rcases agentStep_loop_next h with h | rfl
    · exact .inr (.inr (loopStep_loopKeeps h))
    · exact .inr (.inr (loopKeeps_refl _))
  | tick =>
    cases h
    rcases tick_cases s with e | e <;> rw [e]
    · exact .inr (.inr (loopKeeps_refl s))
    · exact .inr (.inr (loopKeeps_refl s))
  | key k =>
    cases h
    exact .inr (.inl ⟨k, rfl, rfl⟩)
  | cancel =>
    cases h
    exact .inl ⟨rfl, rfl⟩
  | takeFrame | dropFrame =>
    cases h
    exact .inr (.inr (loopKeeps_refl s))

/-- A step is one of the host's two moves, named by the agenda, or keeps what the loop keeps. -/
theorem step_keeps {s t : State} (h : step s = .next t) :
    (∃ rest, s.agenda = .cancel :: rest ∧ t = setCancel { s with agenda := rest }) ∨
      (∃ k rest, s.agenda = .key k :: rest ∧ t = pushKey k { s with agenda := rest }) ∨ LoopKeeps s t := by
  rcases nextStep_next h with ⟨-, h⟩ | ⟨m, rest, ha, h⟩
  · exact .inr (.inr (loopStep_loopKeeps h))
  · rcases agentStep_keeps h with ⟨rfl, e⟩ | ⟨k, rfl, e⟩ | hk
    · exact .inl ⟨rest, ha, e⟩
    · exact .inr (.inl ⟨k, rest, ha, e⟩)
    · exact .inr (.inr hk)

/-- Settles O54: the loop and the other agents keep CANCEL and at most remove the queue's head; the host's two moves
are the ones the agenda names. -/
theorem cancelStaysAndKeysAreFifo : Obligations.CancelStaysAndKeysAreFifo := by
  intro s t h
  rcases step_keeps h with ⟨rest, ha, rfl⟩ | ⟨k, rest, ha, rfl⟩ | ⟨hcancel, hkq, hparams⟩
  · exact ⟨fun _ => rfl, fun _ => .inr (by rw [ha]; rfl), .inl rfl, rfl⟩
  · exact ⟨id, .inl, .inr (.inr ⟨k, rfl, by rw [ha]; rfl⟩), rfl⟩
  · exact ⟨hcancel.trans, fun hc => .inl (hcancel.symm.trans hc), hkq.imp_right .inl, hparams⟩

end Sys2Proof.Machine
/-! Statements of the family `10_state`: registers that are not read do not matter. -/

namespace Sys2Proof.Machine

/-- The state with its general registers replaced. -/
def State.withRegs (s : State) (v : Regs) : State := { s with v := v }

@[simp] theorem withRegs_i (s : State) (v : Regs) : (s.withRegs v).i = s.i := rfl
@[simp] theorem withRegs_pc (s : State) (v : Regs) : (s.withRegs v).pc = s.pc := rfl
@[simp] theorem withRegs_sp (s : State) (v : Regs) : (s.withRegs v).sp = s.sp := rfl
@[simp] theorem withRegs_fb (s : State) (v : Regs) : (s.withRegs v).fb = s.fb := rfl
@[simp] theorem withRegs_kq (s : State) (v : Regs) : (s.withRegs v).kq = s.kq := rfl
@[simp] theorem checkAddr_withRegs (s : State) (v : Regs) (a : Nat) : checkAddr (s.withRegs v) a = checkAddr s a := rfl
@[simp] theorem memRead_withRegs (s : State) (v : Regs) (a n : Nat) : memRead (s.withRegs v) a n = memRead s a n := rfl
@[simp] theorem memWrite_withRegs (s : State) (v : Regs) (a : Nat) (bs : List Byte) :
    memWrite (s.withRegs v) a bs = memWrite s a bs := rfl

theorem pop_withRegs (s : State) (v : Regs) : pop (s.withRegs v) = (pop s).map fun p => (p.1, p.2.withRegs v) := by
  by_cases h : 0 < s.sp.val <;> simp [pop, State.withRegs, h]

theorem push_withRegs (s : State) (v : Regs) (w : Word) : push (s.withRegs v) w = (push s w).map (·.withRegs v) := by
  by_cases h : s.sp.val < 16 <;> simp [push, State.withRegs, h]

/-- `r` is a next state that differs from `t` in registers only and, where `t` is in RUN, in none of the registers
`written` names. -/
def AgreesOn (written : Nibble → Bool) (r : Result) (t : State) : Prop :=
  ∃ u, r = .next u ∧ u.withRegs t.v = t ∧ (t.mode = .run → ∀ k, written k = true → u.getV k = t.getV k)

/-- One value written to a register by two states leaves it equal in both. -/
theorem setV_getV_agree {s s' : State} {x k : Nibble} (b : Byte) (h : k = x ∨ s'.getV k = s.getV k) :
    (s'.setV x b).getV k = (s.setV x b).getV k := by
  by_cases hk : k = x
  · rw [hk, getV_setV_same, getV_setV_same]
  · rw [getV_setV_other _ _ hk, getV_setV_other _ _ hk]
    exact h.resolve_left hk

section

variable {written : Nibble → Bool} {s t u u' : State} {v : Regs}

theorem agreesOn_raise {code : FaultCode} (h : raise code s = .next t) :
    AgreesOn written (raise code (s.withRegs v)) t := by
  cases h
  exact ⟨_, rfl, rfl, fun hm => by cases hm⟩

theorem agreesOn_finishAt {target : Nat} (h : finishAt s u target = .next t) (hu : u'.withRegs u.v = u)
    (hw : ∀ k, written k = true → u'.getV k = u.getV k) :
    AgreesOn written (finishAt (s.withRegs v) u' target) t := by
  by_cases hl : target ≤ s.limit
  · rw [finishAt_ok u hl] at h
    cases h
    refine ⟨_, finishAt_ok (s := s.withRegs v) u' hl, ?_, fun _ => hw⟩
    rw [← hu]
    rfl
  · rw [finishAt_fault u (by omega)] at h
    rw [finishAt_fault (s := s.withRegs v) u' (Nat.lt_of_not_le hl)]
    exact agreesOn_raise h

/-- The end of an instruction whose one general register written is Vx. -/
theorem agreesOn_setV {target : Nat} {x : Nibble} {b : Byte} (h : finishAt s (u.setV x b) target = .next t)
    (hu : (u'.setV x b).withRegs (u.setV x b).v = u.setV x b) (hw : ∀ k, written k = true → k = x) :
    AgreesOn written (finishAt (s.withRegs v) (u'.setV x b) target) t :=
  agreesOn_finishAt h hu fun k hk => setV_getV_agree b (.inl (hw k hk))

theorem agreesOn_finishWithI {value : Nat} (h : finishWithI s u value = .next t) (hu : u'.withRegs u.v = u)
    (hw : ∀ k, written k = true → u'.getV k = u.getV k) :
    AgreesOn written (finishWithI (s.withRegs v) u' value) t := by
  by_cases hl : value ≤ s.limit
  · rw [finishWithI, checkAddr_ok hl] at h
    rw [finishWithI, checkAddr_ok (s := s.withRegs v) hl]
    refine agreesOn_finishAt h ?_ hw
    rw [← hu]
    rfl
  · rw [finishWithI, checkAddr_none (by omega)] at h
    rw [finishWithI, checkAddr_none (s := s.withRegs v) (Nat.lt_of_not_le hl)]
    exact agreesOn_raise h

end

/-! ## The writes of two states that differ in registers -/

theorem resultThenFlag_getV_agree (s s' : State) {x k : Nibble} (result flag : Byte) (h : k = x ∨ k = vF) :
    (resultThenFlag s' x result flag).getV k = (resultThenFlag s x result flag).getV k :=
  setV_getV_agree _ (h.symm.imp_right fun hx => setV_getV_agree _ (.inl hx))

theorem shiftWrites_getV_agree (s : State) (v : Regs) {x k : Nibble} (shift : Byte → Byte) (f : Byte)
    (hx : (s.withRegs v).getV x = s.getV x) (h : k = x ∨ k = vF) :
    (shiftWrites (s.withRegs v) x shift f).getV k = (shiftWrites s x shift f).getV k := by
  by_cases hF : x = vF
  · subst hF
    have hk : k = vF := h.elim id id
    rw [shiftWrites_vF, shiftWrites_vF, hx, hk]
    exact (getV_setV_same _ _ _).trans (getV_setV_same _ _ _).symm
  · rw [shiftWrites_other _ _ _ hF, shiftWrites_other _ _ _ hF, hx]
    exact setV_getV_agree _ (h.imp_right fun hk => setV_getV_agree _ (.inl hk))

theorem shiftWrites_withRegs (s : State) (v : Regs) (x : Nibble) (shift : Byte → Byte) (f : Byte) :
    (shiftWrites (s.withRegs v) x shift f).withRegs (shiftWrites s x shift f).v = shiftWrites s x shift f := by
  unfold shiftWrites
  split <;> rfl

theorem loadV_getV_agree (s s' : State) {bs : List Byte} {k : Nibble} (hk : k.toNat < bs.length) :
    (s'.loadV bs).getV k = (s.loadV bs).getV k := by
  have hr : 0 ≤ k.toNat ∧ k.toNat < 0 + bs.length := by omega
  simp only [State.getV, loadV_v, setFrom_get, dif_pos hr]

theorem regsTo_withRegs (s : State) (v : Regs) (x : Nibble)
    (h : ∀ k : Nibble, k.toNat ≤ x.toNat → (s.withRegs v).getV k = s.getV k) :
    (s.withRegs v).regsTo x = s.regsTo x := by
  refine List.ext_getElem (by rw [regsTo_length, regsTo_length]) fun n h1 h2 => ?_
  have hn : n ≤ x.toNat := by
    rw [regsTo_length] at h1
    omega
  obtain ⟨k, rfl⟩ : ∃ k : Nibble, k.toNat = n := ⟨BitVec.ofNat 4 n, Nat.mod_eq_of_lt (by have := x.isLt; omega)⟩
  rw [regsTo_get, regsTo_get]
  exact h k hn

/-! ## Instruction by instruction -/

/-- CALL reads and writes no general register (spec/42_control_flow.md R214). -/
theorem execCall_agreesOn {written : Nibble → Bool} {s t : State} {v : Regs} (nnn : Addr12)
    (h : execCall nnn s = .next t) (hw : ∀ k, written k = false) :
    AgreesOn written (execCall nnn (s.withRegs v)) t := by
  simp only [execCall, withRegs_sp, withRegs_pc, checkAddr_withRegs, push_withRegs] at h ⊢
  split at h
  · next hsp =>
    rw [if_pos hsp]
    exact agreesOn_raise h
  · next hsp =>
    rw [if_neg hsp]
    rcases e : checkAddr s (s.pc.toNat + 2) with _ | ret <;> simp only [e] at h ⊢
    · exact agreesOn_raise h
    · rcases e : push s ret with _ | u <;> simp only [e] at h ⊢
      · exact agreesOn_raise h
      · cases h
        exact ⟨_, rfl, rfl, fun _ k hk => by simp [hw k] at hk⟩

/-- The reads column of spec/10_state.md R32: registers outside it do not influence what an instruction does. -/
theorem exec_agreesOn {i : Instr} {s t : State} {v : Regs}
    (hv : ∀ k, i.readsV k = true → (s.withRegs v).getV k = s.getV k) (h : exec i s = .next t) :
    AgreesOn (i.writesV ·) (exec i (s.withRegs v)) t := by
  cases i with
  | ret =>
    simp only [exec, execRet, pop_withRegs] at h ⊢
    rcases pop_cases s with ⟨-, e⟩ | ⟨k, -, e⟩ <;> rw [e] at h ⊢
    · exact agreesOn_raise h
    · cases h
      exact ⟨_, rfl, rfl, fun _ _ hk => by cases hk⟩
  | jp nnn =>
    cases h
    exact ⟨_, rfl, rfl, fun _ _ hk => by cases hk⟩
  | call nnn => exact execCall_agreesOn nnn h fun _ => rfl
  | seImm x kk | sneImm x kk =>
    have hx := hv x (by simp [Instr.readsV])
    simp only [exec, execSeImm, execSneImm, hx]
    exact agreesOn_finishAt h rfl (by simp [Instr.writesV])
  | seReg x y | sneReg x y =>
    have hx := hv x (by simp [Instr.readsV])
    have hy := hv y (by simp [Instr.readsV])
    simp only [exec, execSeReg, execSneReg, hx, hy]
    exact agreesOn_finishAt h rfl (by simp [Instr.writesV])
  | jpV0 nnn =>
    have hx := hv 0#4 (by simp [Instr.readsV])
    simp only [exec, execJpV0, hx]
    exact agreesOn_finishAt h rfl (by simp [Instr.writesV])
  | ldImm | ldVxDt => exact agreesOn_setV h rfl (by simp [Instr.writesV])
  | rnd x =>
    refine agreesOn_finishAt h rfl fun k hk => setV_getV_agree _ (.inl ?_)
    simpa [Instr.writesV] using hk
  | addImm x =>
    have hx := hv x (by simp [Instr.readsV])
    simp only [exec, execAddImm, hx]
    exact agreesOn_setV h rfl (by simp [Instr.writesV])
  | ldReg x y =>
    have hy := hv y (by simp [Instr.readsV])
    simp only [exec, execLdReg, hy]
    exact agreesOn_setV h rfl (by simp [Instr.writesV])
  | orReg x y | andReg x y | xorReg x y =>
    have hx := hv x (by simp [Instr.readsV])
    have hy := hv y (by simp [Instr.readsV])
    simp only [exec, execOr, execAnd, execXor, hx, hy]
    exact agreesOn_setV h rfl (by simp [Instr.writesV])
  | addReg x y | sub x y | subn x y =>
    have hx := hv x (by simp [Instr.readsV])
    have hy := hv y (by simp [Instr.readsV])
    simp only [exec, execAddReg, execSub, execSubn, hx, hy]
    refine agreesOn_finishAt h rfl fun k hk => resultThenFlag_getV_agree _ _ _ _ ?_
    simpa [Instr.writesV, vF] using hk
  | shr x | shl x =>
    have hx := hv x (by simp [Instr.readsV])
    simp only [exec, execShr, execShl, hx]
    refine agreesOn_finishAt h (shiftWrites_withRegs ..) fun k hk => shiftWrites_getV_agree _ _ _ _ hx ?_
    simpa [Instr.writesV, vF] using hk
  | drw x y n =>
    have hx := hv x (by simp [Instr.readsV])
    have hy := hv y (by simp [Instr.readsV])
    simp only [exec, execDrw, memRead_withRegs, withRegs_i, drawWrites, withRegs_fb, hx, hy] at h ⊢
    rcases e : memRead s s.i.toNat n.toNat with _ | rows <;> simp only [e] at h ⊢
    · exact agreesOn_raise h
    · exact agreesOn_setV h rfl (by simp [Instr.writesV, vF])
  | skp x | sknp x =>
    have hx := hv x (by simp [Instr.readsV])
    simp only [exec, execSkp, execSknp, keyPoll_eq, hx] at h ⊢
    exact agreesOn_finishAt h rfl (by simp [Instr.writesV])
  | ldVxK x =>
    simp only [exec, execLdVxK, withRegs_kq] at h ⊢
    rcases e : s.kq with _ | ⟨key, rest⟩ <;> simp only [e] at h ⊢
    · cases h
      exact ⟨_, rfl, rfl, fun hm => by cases hm⟩
    · exact agreesOn_setV h rfl (by simp [Instr.writesV])
  | ldDtVx x | ldStVx x =>
    have hx := hv x (by simp [Instr.readsV])
    simp only [exec, execLdDtVx, execLdStVx, hx]
    exact agreesOn_finishAt h rfl (by simp [Instr.writesV])
  | addI x | ldF x =>
    have hx := hv x (by simp [Instr.readsV])
    simp only [exec, execAddI, execLdF, hx]
    exact agreesOn_finishWithI h rfl (by simp [Instr.writesV])
  | ldB x =>
    have hx := hv x (by simp [Instr.readsV])
    simp only [exec, execLdB, memWrite_withRegs, withRegs_i, hx] at h ⊢
    rcases e : memWrite s s.i.toNat (digits (s.getV x)) with code | m <;> simp only [e] at h ⊢
    · exact agreesOn_raise h
    · exact agreesOn_finishAt h rfl (by simp [Instr.writesV])
  | ldMemVx x =>
    have hregs := regsTo_withRegs s v x fun k hk => hv k (by simpa [Instr.readsV] using hk)
    simp only [exec, execLdMemVx, memWrite_withRegs, withRegs_i, hregs] at h ⊢
    rcases e : memWrite s s.i.toNat (s.regsTo x) with code | m <;> simp only [e] at h ⊢
    · exact agreesOn_raise h
    · exact agreesOn_finishWithI h rfl (by simp [Instr.writesV])
  | ldVxMem x =>
    simp only [exec, execLdVxMem, memRead_withRegs, withRegs_i] at h ⊢
    rcases memRead_cases s s.i.toNat (x.toNat + 1) with ⟨-, -, e⟩ | ⟨-, e⟩ <;> rw [e] at h ⊢
    · exact agreesOn_raise h
    · refine agreesOn_finishWithI h rfl fun k hk => loadV_getV_agree _ _ ?_
      have hle : k.toNat ≤ x.toNat := by simpa [Instr.writesV] using hk
      rw [List.length_map, List.length_range]
      omega
  | sys | cls | ldI => exact agreesOn_finishAt h rfl (by simp [Instr.writesV])

/-- Settles O42, in every mode: each meaning reads listed registers only, so its outcome is the same up to registers,
and what it writes to a register is computed from values that both states share. -/
theorem registersNotReadDoNotMatter : Obligations.RegistersNotReadDoNotMatter := by
  intro i s t v _ hv h
  exact exec_agreesOn hv h

end Sys2Proof.Machine
end

section
/-! Statements of the family `20_memory`. -/

namespace Sys2Proof.Machine

/-! ## What an instruction stores -/

/-- The memory of `t` is that of `s` with `bs` stored at I, past the font region. -/
def StoredAtI (s t : State) (bs : List Byte) : Prop :=
  Config.fontSize ≤ s.i.toNat ∧ t.mem = Memory.writeList s.mem s.i.toNat bs

theorem StoredAtI.read_outside {s t : State} {bs : List Byte} (h : StoredAtI s t bs) {a : Nat}
    (ha : a < s.i.toNat ∨ s.i.toNat + bs.length ≤ a) : Memory.read t.mem a = Memory.read s.mem a := by
  rw [h.2, read_writeList_outside _ _ _ _ ha]

theorem Advanced.mem_eq {s u t : State} (h : Advanced s u t) : t.mem = u.mem := by
  obtain ⟨w, -, rfl⟩ := h
  rfl

theorem AdvancedWithI.mem_eq {s u t : State} (h : AdvancedWithI s u t) : t.mem = u.mem := by
  obtain ⟨w, j, -, -, rfl⟩ := h
  rfl

/-- Memory is as before, or holds one store at I, to addresses that `storesAt` lists (spec/20_memory.md R81). -/
def StoresAsListed (i : Instr) (s t : State) : Prop :=
  t.mem = s.mem ∨ ∃ bs, StoredAtI s t bs ∧
    ∀ a, i.storesAt s.i.toNat a = false → a < s.i.toNat ∨ s.i.toNat + bs.length ≤ a

theorem completes_storesAsListed {i : Instr} {s t : State} (h : Completes i s t) : StoresAsListed i s t := by
  cases i with
  | ldB x | ldMemVx x =>
    obtain ⟨hfont, h⟩ := h
    refine .inr ⟨_, ⟨hfont, h.mem_eq⟩, fun a ha => ?_⟩
    simp only [Instr.storesAt, Bool.and_eq_false_iff, decide_eq_false_iff_not] at ha
    simp only [regsTo_length, digits, List.length_cons, List.length_nil]
    omega
  | ret =>
    obtain ⟨_, -, rfl⟩ := h
    exact .inl rfl
  | call =>
    obtain ⟨_, _, -, -, rfl⟩ := h
    exact .inl rfl
  | shr x | shl x =>
    obtain ⟨v, d, e⟩ := shiftWrites_frame s x _ _
    rw [Completes, e] at h
    exact .inl ((Advanced.mem_eq h).trans rfl)
  | ldVxK x =>
    rcases h with ⟨-, rfl⟩ | ⟨_, _, -, h⟩
    · exact .inl rfl
    · exact .inl h.mem_eq
  | addI | ldF | ldVxMem => exact .inl ((AdvancedWithI.mem_eq h).trans rfl)
  | _ => exact .inl ((Advanced.mem_eq h).trans rfl)

/-- A fault leaves memory as it was (spec/60_exceptions.md R362). -/
theorem exec_storesAsListed {i : Instr} {s t : State} (h : exec i s = .next t) : StoresAsListed i s t := by
  rcases exec_next h with ⟨code, -, rfl⟩ | hc
  · exact .inl rfl
  · exact completes_storesAsListed hc

/-- Settles O43: an instruction stores nothing, or one list of bytes to addresses that `storesAt` lists. -/
theorem onlyStoredBytesChange : Obligations.OnlyStoredBytesChange := by
  intro i s t a h ha
  rcases exec_storesAsListed h with e | ⟨bs, hst, hout⟩
  · rw [e]
  · exact hst.read_outside (hout a ha)

/-! ## The font region along the steps -/

/-- The font region reads in `t` as in `s` (spec/92_eei_decisions.md D3). -/
def KeepsFont (s t : State) : Prop := ∀ a, a < Config.fontSize → Memory.read t.mem a = Memory.read s.mem a

theorem keepsFont_of_mem {s t : State} (h : t.mem = s.mem) : KeepsFont s t := fun _ _ => by rw [h]

/-- A store that passed the font check lies above the font region (spec/20_memory.md R87). -/
theorem StoredAtI.keepsFont {s t : State} {bs : List Byte} (h : StoredAtI s t bs) : KeepsFont s t :=
  fun _ ha => h.read_outside (.inl (Nat.lt_of_lt_of_le ha h.1))

theorem exec_keepsFont {i : Instr} {s t : State} (h : exec i s = .next t) : KeepsFont s t := by
  rcases exec_storesAsListed h with e | ⟨bs, hst, -⟩
  · exact keepsFont_of_mem e
  · exact hst.keepsFont

/-- The loop's step touches memory only through the instruction it runs. -/
theorem loopStep_mem {s t : State} (h : loopStep s = .next t) :
    t.mem = s.mem ∨ ∃ i u, exec i s = .next u ∧ t.mem = u.mem := by
  rcases loopStep_next h with ⟨-, h⟩ | ⟨-, h⟩
  · rcases runCycle_next h with ⟨-, rfl⟩ | ⟨-, (rfl | rfl) | ⟨w, i, u, -, -, hu, rfl⟩⟩
    · exact .inl rfl
    · exact .inl rfl
    · exact .inl rfl
    · exact .inr ⟨i, u, hu, by split <;> rfl⟩
  · rcases keyWaitStep_next h with ⟨-, rfl⟩ | ⟨-, -, rfl⟩ | ⟨k, rest, -, ⟨-, rfl⟩ | ⟨-, rfl⟩⟩ <;> exact .inl rfl

theorem loopStep_keepsFont {s t : State} (h : loopStep s = .next t) : KeepsFont s t := by
  rcases loopStep_mem h with e | ⟨i, u, hu, e⟩
  · exact keepsFont_of_mem e
  · intro a ha
    rw [e, exec_keepsFont hu a ha]

/-- The ticker, the host and the consumer do not reach memory (spec/20_memory.md R81). -/
theorem agentStep_keepsFont {m : Move} {s t : State} (h : agentStep m s = .next t) : KeepsFont s t := by
  cases m with
  | loop =>
    rcases agentStep_loop_next h with h | rfl
    · exact loopStep_keepsFont h
    · exact keepsFont_of_mem rfl
  | tick =>
    cases h
    rcases tick_cases s with e | e <;> exact keepsFont_of_mem (by rw [e])
  | key | cancel | takeFrame | dropFrame =>
    cases h
    exact keepsFont_of_mem rfl

/-- Settles O58: memory changes only by an instruction's store, which has passed the font check; taking a move off
the agenda leaves memory as it was. -/
theorem fontIsNeverMutated : Obligations.FontIsNeverMutated := by
  intro s t a h ha
  have hfont : a < Config.fontSize := Nat.lt_succ_of_le ha
  rcases nextStep_next h with ⟨-, h⟩ | ⟨m, rest, -, h⟩
  · exact loopStep_keepsFont h a hfont
  · exact agentStep_keepsFont h a hfont

/-! ## Data accesses and the fetch -/

/-- A data access of `n` bytes at `a` is out of bounds (spec/20_memory.md R86). -/
theorem oob_iff (a n : Nat) : (0 < n ∧ 0xFFF < a + n - 1) ↔ (0 < n ∧ Config.memSize < a + n) := by
  simp only [Config.memSize]
  omega

/-- A range of `n` bytes at `a` has an address of the font region (spec/20_memory.md R87). -/
theorem exists_font_address_iff (a n : Nat) : (∃ k, k < n ∧ a + k ≤ 0x04F) ↔ (0 < n ∧ a < Config.fontSize) := by
  simp only [Config.fontSize]
  constructor
  · rintro ⟨k, hk, ha⟩
    omega
  · rintro ⟨hn, ha⟩
    exact ⟨0, hn, by omega⟩

/-- Settles O28: the bounds check, the font check after it, and the bytes that a write past both leaves. -/
theorem dataAccessBoundsAndWrites : Obligations.DataAccessBoundsAndWrites := by
  simp only [Obligations.DataAccessBoundsAndWrites, oob_iff, exists_font_address_iff]
  refine ⟨fun s a n => ?_, fun s a bs ⟨hn, hoob⟩ => memWrite_oob hn hoob,
    fun s a bs hin ⟨hn, hf⟩ => memWrite_font hn (by omega) hf, fun s a bs hin hnf => ?_⟩
  · split
    · next h => exact memRead_oob h.1 h.2
    · next h => exact memRead_ok (by omega)
  · rcases memWrite_cases s a bs with ⟨_, _, _⟩ | ⟨_, _, _, _⟩ | ⟨hle, -, e⟩
    · omega
    · omega
    · exact ⟨_, e, fun k hk => read_writeList_inside bs _ a k hk (by omega),
        fun b hb => read_writeList_outside bs _ a b hb⟩

/-- The byte at the lower address is the high byte (spec/20_memory.md R83). -/
theorem wordOfBytes_toNat (hi lo : Byte) : (wordOfBytes hi lo).toNat = hi.toNat * 256 + lo.toNat := by
  have happend : (wordOfBytes hi lo).toNat = hi.toNat <<< 8 ||| lo.toNat := BitVec.toNat_append hi lo
  rw [happend, ← Nat.shiftLeft_add_eq_or_of_lt lo.isLt, Nat.shiftLeft_eq]

theorem loopStep_fetchOob {s : State} (hr : s.mode = .run) (hc : s.cancel = false) (hf : fetch s = none) :
    loopStep s = raise .fetchOob s := by
  simp only [loopStep, hr, runCycle, hc, hf]
  rfl

/-- Settles O46: a fetch inside the space joins the two bytes, and one from 0xFFF on is the cycle's fault. -/
theorem fetchIsBigEndianAndBounded : Obligations.FetchIsBigEndianAndBounded := by
  intro s
  rcases fetch_cases s with ⟨hpc, hf⟩ | ⟨hpc, hf⟩
  · exact ⟨fun h => by omega, fun _ => ⟨hf, fun hr hc => loopStep_fetchOob hr hc hf⟩⟩
  · exact ⟨fun _ => ⟨_, hf, wordOfBytes_toNat _ _⟩, fun h => by omega⟩

end Sys2Proof.Machine
end

section
/-! Statements of the family `30_encoding`: the decoder and the encoder. -/

namespace Sys2Proof

/-! ## The decoder on the words the encoder builds -/

/-- The word of one register and a byte is that of the address they make. -/
theorem encodeXkk_eq (op x : Nibble) (kk : Byte) : encodeXkk op x kk = encodeNnn op (x ++ kk) :=
  BitVec.append_assoc

@[simp] theorem fieldNnn_encodeXkk (op x : Nibble) (kk : Byte) : fieldNnn (encodeXkk op x kk) = x ++ kk := by
  rw [encodeXkk_eq, fieldNnn_encodeNnn]

theorem decode_encodeNnn_zero (p : Params) (nnn : Addr12) :
    decode p (encodeNnn 0x0#4 nnn) = decodeZero p.decode0 (encodeNnn 0x0#4 nnn) := by
  simp [decode]

theorem decode_encodeXkk_zero (p : Params) (x : Nibble) (kk : Byte) :
    decode p (encodeXkk 0x0#4 x kk) = decodeZero p.decode0 (encodeXkk 0x0#4 x kk) := by
  simp [decode]

theorem decode_encodeXyn_five (p : Params) (x y n : Nibble) :
    decode p (encodeXyn 0x5#4 x y n) = decodeLowZero p.decode59 (encodeXyn 0x5#4 x y n) (.seReg x y) := by
  simp [decode]

theorem decode_encodeXyn_nine (p : Params) (x y n : Nibble) :
    decode p (encodeXyn 0x9#4 x y n) = decodeLowZero p.decode59 (encodeXyn 0x9#4 x y n) (.sneReg x y) := by
  simp [decode]

theorem decode_encodeXyn_eight (p : Params) (x y n : Nibble) :
    decode p (encodeXyn 0x8#4 x y n) = decodeEight (encodeXyn 0x8#4 x y n) := by
  simp [decode]

theorem decode_encodeXkk_E (p : Params) (x : Nibble) (kk : Byte) :
    decode p (encodeXkk 0xE#4 x kk) = decodeE (encodeXkk 0xE#4 x kk) := by
  simp [decode]

theorem decode_encodeXkk_F (p : Params) (x : Nibble) (kk : Byte) :
    decode p (encodeXkk 0xF#4 x kk) = decodeF (encodeXkk 0xF#4 x kk) := by
  simp [decode]

theorem decodeLowZero_illegal {w : Word} (hn : fieldN w ≠ 0#4) (i : Instr) :
    decodeLowZero .strict w i = .illegal :=
  if_neg (not_or.mpr ⟨nofun, hn⟩)

theorem decodeLowZero_zero (d : Decode59) {w : Word} (hn : fieldN w = 0#4) (i : Instr) :
    decodeLowZero d w i = .instr i := if_pos (.inr hn)

theorem decodeLowZero_ignore (w : Word) (i : Instr) : decodeLowZero .ignore w i = .instr i := if_pos (.inl rfl)

/-! ## Decoding after encoding -/

/-- A word other than those of CLS and RET is SYS, unless it is refused (spec/30_encoding.md R114). -/
theorem decodeZero_sys {d : Decode0} {w : Word} (hcls : w ≠ 0x00E0#16) (hret : w ≠ 0x00EE#16)
    (h : d = .exact ∨ fieldKk w ≠ 0xE0#8 ∧ fieldKk w ≠ 0xEE#8) : decodeZero d w = .instr (.sys (fieldNnn w)) := by
  rw [decodeZero, if_neg hcls, if_neg hret, if_neg]
  rintro ⟨rfl, hkk⟩
  rcases h with h | ⟨h, h'⟩
  · cases h
  · exact hkk.elim h h'

/-- Under `exact`, an address other than those of CLS and RET makes SYS (spec/30_encoding.md R114). -/
theorem decode_encode_sys {p : Params} {nnn : Addr12} (hp : p.decode0 = .exact) (hcls : nnn ≠ 0x0E0#12)
    (hret : nnn ≠ 0x0EE#12) : decode p (encodeNnn 0x0#4 nnn) = .instr (.sys nnn) := by
  have hw : ∀ w, encodeNnn 0x0#4 nnn = w → nnn = fieldNnn w := by
    rintro _ rfl
    rw [fieldNnn_encodeNnn]
  rw [decode_encodeNnn_zero, decodeZero_sys (hcls ∘ hw _) (hret ∘ hw _) (.inl hp), fieldNnn_encodeNnn]

/-- No parameter matters to the decoding of an instruction's own word, SYS excepted. -/
theorem decode_encode_of_ne_sys (p : Params) {i : Instr} (hi : ∀ nnn, i ≠ .sys nnn) : decode p (encode i) = .instr i := by
  cases i with
  | sys nnn => exact absurd rfl (hi nnn)
  | cls | ret => rfl
  | seReg x y => simp [encode, decode_encodeXyn_five, decodeLowZero_zero]
  | sneReg x y => simp [encode, decode_encodeXyn_nine, decodeLowZero_zero]
  | ldReg x y | orReg x y | andReg x y | xorReg x y | addReg x y | sub x y | shr x y | subn x y | shl x y =>
    simp [encode, decode_encodeXyn_eight, decodeEight]
  | skp x | sknp x => simp [encode, decode_encodeXkk_E, decodeE]
  | ldVxDt x | ldVxK x | ldDtVx x | ldStVx x | addI x | ldF x | ldB x | ldMemVx x | ldVxMem x =>
    simp [encode, decode_encodeXkk_F, decodeF]
  | jp | call | seImm | sneImm | ldImm | addImm | ldI | jpV0 | rnd | drw => simp [encode, decode]

/-- Settles O1: SYS by its address, every other instruction by the operator and the sub-opcode of its word. -/
theorem decodeOfEncodeIsTheInstruction : Obligations.DecodeOfEncodeIsTheInstruction := by
  intro p i hp hwf
  cases i with
  | sys nnn =>
    obtain ⟨hcls, hret⟩ : nnn ≠ 0x0E0#12 ∧ nnn ≠ 0x0EE#12 := by simpa [Instr.wellFormed] using hwf
    exact decode_encode_sys hp hcls hret
  | _ => exact decode_encode_of_ne_sys p nofun

/-! ## Encoding after decoding -/

/-- What the decoder may answer on `w`: an instruction only if it is well formed and its word is `w`. -/
def Decoded.SoundFor (w : Word) : Decoded → Prop
  | .instr i => encode i = w ∧ i.wellFormed = true
  | .illegal | .ambiguous => True

section

variable {w : Word} {op n : Nibble} {kk : Byte}

theorem encodeNnn_of_op (hop : (fieldOp w).toNat = op.toNat) : encodeNnn op (fieldNnn w) = w := by
  rw [← BitVec.eq_of_toNat_eq hop, encodeNnn_fields]

theorem encodeXkk_of_op (hop : (fieldOp w).toNat = op.toNat) : encodeXkk op (fieldX w) (fieldKk w) = w := by
  rw [← BitVec.eq_of_toNat_eq hop, encodeXkk_fields]

theorem encodeXyn_of_op (hop : (fieldOp w).toNat = op.toNat) :
    encodeXyn op (fieldX w) (fieldY w) (fieldN w) = w := by
  rw [← BitVec.eq_of_toNat_eq hop, encodeXyn_fields]

theorem encodeXkk_of_op_kk (hop : (fieldOp w).toNat = op.toNat) (hkk : fieldKk w = kk) :
    encodeXkk op (fieldX w) kk = w := by
  rw [← hkk, encodeXkk_of_op hop]

theorem encodeXyn_of_op_n (hop : (fieldOp w).toNat = op.toNat) (hn : (fieldN w).toNat = n.toNat) :
    encodeXyn op (fieldX w) (fieldY w) n = w := by
  rw [← BitVec.eq_of_toNat_eq hn, encodeXyn_of_op hop]

theorem decodeZero_sound (d : Decode0) (hop : (fieldOp w).toNat = 0x0) : (decodeZero d w).SoundFor w := by
  have hw : encodeNnn 0x0#4 (fieldNnn w) = w := encodeNnn_of_op hop
  unfold decodeZero
  split_ifs with hcls hret
  · exact ⟨hcls.symm, rfl⟩
  · exact ⟨hret.symm, rfl⟩
  · trivial
  · refine ⟨hw, ?_⟩
    simp only [Instr.wellFormed, Bool.and_eq_true, bne_iff_ne]
    constructor <;> intro hnnn <;> rw [hnnn] at hw
    · exact hcls hw.symm
    · exact hret hw.symm

theorem decodeLowZero_sound {i : Instr} (hi : fieldN w = 0x0#4 → encode i = w ∧ i.wellFormed = true) :
    (decodeLowZero .strict w i).SoundFor w := by
  by_cases hn : fieldN w = 0x0#4
  · rw [decodeLowZero_zero _ hn]
    exact hi hn
  · rw [decodeLowZero_illegal hn]
    trivial

theorem decodeEight_sound (hop : (fieldOp w).toNat = 0x8) : (decodeEight w).SoundFor w := by
  unfold decodeEight
  split
  iterate 9
    next hn => exact ⟨encodeXyn_of_op_n hop hn, rfl⟩
  trivial

theorem decodeE_sound (hop : (fieldOp w).toNat = 0xE) : (decodeE w).SoundFor w := by
  unfold decodeE
  split_ifs
  iterate 2
    next hkk => exact ⟨encodeXkk_of_op_kk hop hkk, rfl⟩
  trivial

theorem decodeF_sound (hop : (fieldOp w).toNat = 0xF) : (decodeF w).SoundFor w := by
  unfold decodeF
  split_ifs
  iterate 9
    next hkk => exact ⟨encodeXkk_of_op_kk hop hkk, rfl⟩
  trivial

/-- The decoder drops no bit, unless it is told to ignore the low nibble of operators 5 and 9. -/
theorem decode_sound {p : Params} (hp : p.decode59 = .strict) (w : Word) : (decode p w).SoundFor w := by
  have hlt := (fieldOp w).isLt
  unfold decode
  rw [hp]
  split
  next hop => exact decodeZero_sound p.decode0 hop
  next hop => exact ⟨encodeNnn_of_op hop, rfl⟩
  next hop => exact ⟨encodeNnn_of_op hop, rfl⟩
  next hop => exact ⟨encodeXkk_of_op hop, rfl⟩
  next hop => exact ⟨encodeXkk_of_op hop, rfl⟩
  next hop => exact decodeLowZero_sound fun hn => ⟨encodeXyn_of_op_n hop (by rw [hn]), rfl⟩
  next hop => exact ⟨encodeXkk_of_op hop, rfl⟩
  next hop => exact ⟨encodeXkk_of_op hop, rfl⟩
  next hop => exact decodeEight_sound hop
  next hop => exact decodeLowZero_sound fun hn => ⟨encodeXyn_of_op_n hop (by rw [hn]), rfl⟩
  next hop => exact ⟨encodeNnn_of_op hop, rfl⟩
  next hop => exact ⟨encodeNnn_of_op hop, rfl⟩
  next hop => exact ⟨encodeXkk_of_op hop, rfl⟩
  next hop => exact ⟨encodeXyn_of_op hop, rfl⟩
  next hop => exact decodeE_sound hop
  next =>
    have hop : (fieldOp w).toNat = 0xF := by grind
    exact decodeF_sound hop

end

/-- Settles O2: the default parameters test every bit that the instruction does not carry. -/
theorem encodeOfDecodeIsTheWord : Obligations.EncodeOfDecodeIsTheWord := by
  intro w i h
  have hs := decode_sound (p := Config.defaults) rfl w
  rwa [h] at hs

/-! ## The second level, operator by operator -/

/-- The 30 words of `refuse_ambiguous`: the low byte of CLS or RET under another high nibble
(spec/30_encoding.md R114). -/
theorem decode_ambiguous {p : Params} {h : Nibble} {b : Byte} (hp : p.decode0 = .refuseAmbiguous) (hh : h ≠ 0#4)
    (hb : b = 0xE0#8 ∨ b = 0xEE#8) : decode p (encodeXkk 0x0#4 h b) = .ambiguous := by
  have hw : ∀ w, encodeXkk 0x0#4 h b = w → h = fieldX w := by
    rintro _ rfl
    rw [fieldX_encodeXkk]
  rw [decode_encodeXkk_zero, decodeZero, if_neg (hh ∘ hw _), if_neg (hh ∘ hw _), if_pos]
  exact ⟨hp, by rwa [fieldKk_encodeXkk]⟩

/-- A low byte that is neither that of CLS nor that of RET makes SYS, whatever the parameters. -/
theorem decode_sys_of_kk (p : Params) (h : Nibble) {b : Byte} (hcls : b ≠ 0xE0#8) (hret : b ≠ 0xEE#8) :
    decode p (encodeXkk 0x0#4 h b) = .instr (.sys (h ++ b)) := by
  have hw : ∀ w, encodeXkk 0x0#4 h b = w → b = fieldKk w := by
    rintro _ rfl
    rw [fieldKk_encodeXkk]
  rw [decode_encodeXkk_zero, decodeZero_sys (hcls ∘ hw _) (hret ∘ hw _), fieldNnn_encodeXkk]
  rw [fieldKk_encodeXkk]
  exact .inr ⟨hcls, hret⟩

/-- Settles O3: CLS and RET by their own words, the others by address, high nibble or low byte. -/
theorem operatorZeroIsExactMatch : Obligations.OperatorZeroIsExactMatch :=
  ⟨fun _ => ⟨rfl, rfl⟩, fun _ _ => decode_encode_sys,
    fun _ _ hp hh => ⟨decode_ambiguous hp hh (.inl rfl), decode_ambiguous hp hh (.inr rfl)⟩,
    fun p h _ _ => decode_sys_of_kk p h⟩

theorem decode_eight_illegal (p : Params) (x y : Nibble) {n : Nibble}
    (hn : n ∈ [0x8#4, 0x9#4, 0xA#4, 0xB#4, 0xC#4, 0xD#4, 0xF#4]) : decode p (encodeXyn 0x8#4 x y n) = .illegal := by
  rw [decode_encodeXyn_eight, decodeEight, fieldN_encodeXyn]
  fin_cases hn <;> rfl

theorem decode_E_illegal (p : Params) (x : Nibble) {kk : Byte} (hkk : kk ∉ [0x9E#8, 0xA1#8]) :
    decode p (encodeXkk 0xE#4 x kk) = .illegal := by
  simp only [List.mem_cons, List.not_mem_nil, or_false, not_or] at hkk
  simp [decode_encodeXkk_E, decodeE, hkk]

theorem decode_F_illegal (p : Params) (x : Nibble) {kk : Byte}
    (hkk : kk ∉ [0x07#8, 0x0A#8, 0x15#8, 0x18#8, 0x1E#8, 0x29#8, 0x33#8, 0x55#8, 0x65#8]) :
    decode p (encodeXkk 0xF#4 x kk) = .illegal := by
  simp only [List.mem_cons, List.not_mem_nil, or_false, not_or] at hkk
  simp [decode_encodeXkk_F, decodeF, hkk]

/-- Settles O4: the words listed are those of their instructions, and no other sub-opcode is tested for. -/
theorem secondLevelDispatchOfEightEAndF : Obligations.SecondLevelDispatchOfEightEAndF := by
  have own (p : Params) (i : Instr) := decode_encode_of_ne_sys p (i := i)
  refine ⟨fun p x y => ?eight, fun p x => ?opE, fun p x => ?opF⟩
  case eight =>
    exact ⟨own p (.ldReg x y) nofun, own p (.orReg x y) nofun, own p (.andReg x y) nofun, own p (.xorReg x y) nofun,
      own p (.addReg x y) nofun, own p (.sub x y) nofun, own p (.shr x y) nofun, own p (.subn x y) nofun,
      own p (.shl x y) nofun, fun n => decode_eight_illegal p x y⟩
  case opE => exact ⟨own p (.skp x) nofun, own p (.sknp x) nofun, fun kk => decode_E_illegal p x⟩
  case opF =>
    exact ⟨own p (.ldVxDt x) nofun, own p (.ldVxK x) nofun, own p (.ldDtVx x) nofun, own p (.ldStVx x) nofun,
      own p (.addI x) nofun, own p (.ldF x) nofun, own p (.ldB x) nofun, own p (.ldMemVx x) nofun,
      own p (.ldVxMem x) nofun, fun kk => decode_F_illegal p x⟩

/-- Settles O5: the words with low nibble 0 are the instructions' own, the others turn on `P_DECODE_5_9`. -/
theorem operatorsFiveAndNineTestTheLowNibble : Obligations.OperatorsFiveAndNineTestTheLowNibble := by
  refine ⟨fun p x y => ⟨?_, ?_⟩, fun p x y n hp hn => ⟨?_, ?_⟩, fun p x y n hp => ⟨?_, ?_⟩⟩
  · exact decode_encode_of_ne_sys p (i := .seReg x y) nofun
  · exact decode_encode_of_ne_sys p (i := .sneReg x y) nofun
  · refine (decode_encodeXyn_five p x y n).trans ?_
    rw [hp, decodeLowZero_illegal (by rwa [fieldN_encodeXyn])]
  · refine (decode_encodeXyn_nine p x y n).trans ?_
    rw [hp, decodeLowZero_illegal (by rwa [fieldN_encodeXyn])]
  · refine (decode_encodeXyn_five p x y n).trans ?_
    rw [hp, decodeLowZero_ignore]
  · refine (decode_encodeXyn_nine p x y n).trans ?_
    rw [hp, decodeLowZero_ignore]

end Sys2Proof
end

section
/-! Statements of the family `40_cycle_fsm`: the cycle, the agents and the transitions of MODE. -/

namespace Sys2Proof.Machine

/-! ## Every instruction answers -/

/-- A next state, and neither a stop nor a refusal. -/
def Answers (r : Result) : Prop := ∃ t, r = .next t

theorem raise_answers (code : FaultCode) (s : State) : Answers (raise code s) := ⟨_, rfl⟩

theorem finishAt_answers (s t : State) (target : Nat) : Answers (finishAt s t target) := by
  rcases finishAt_cases s t target with e | ⟨_, -, -, e⟩ <;> exact ⟨_, e⟩

theorem finishWithI_answers (s t : State) (value : Nat) : Answers (finishWithI s t value) := by
  rcases finishWithI_cases s t value with ⟨-, e⟩ | ⟨-, e⟩ <;> rw [e]
  · exact raise_answers _ s
  · exact finishAt_answers s _ _

theorem execCall_answers (nnn : Addr12) (s : State) : Answers (execCall nnn s) := by
  unfold execCall
  split
  · exact raise_answers _ s
  · rcases checkAddr_cases s (s.pc.toNat + 2) with ⟨-, e⟩ | ⟨w, e, -, -⟩ <;> simp only [e]
    · exact raise_answers _ s
    · rcases push_cases s w with ⟨-, e⟩ | ⟨_, -, e⟩ <;> rw [e]
      · exact raise_answers _ s
      · exact ⟨_, rfl⟩

/-- Settles O40: every meaning ends in a fault taken or in one of the two ends of an instruction, but for RET, JP, CALL
and the wait of FX0A, which give the next state themselves. -/
theorem everyInstructionAnswers : Obligations.EveryInstructionAnswers := by
  intro i s
  change Answers (exec i s)
  cases i with
  | ret =>
    simp only [exec, execRet]
    rcases pop_cases s with ⟨-, e⟩ | ⟨_, -, e⟩ <;> rw [e]
    · exact raise_answers _ s
    · exact ⟨_, rfl⟩
  | jp => exact ⟨_, rfl⟩
  | call nnn => exact execCall_answers nnn s
  | drw x y n =>
    simp only [exec, execDrw]
    split
    · exact raise_answers _ s
    · exact finishAt_answers s _ _
  | ldVxK x =>
    simp only [exec, execLdVxK]
    split
    · exact finishAt_answers s _ _
    · exact ⟨_, rfl⟩
  | addI | ldF => exact finishWithI_answers s _ _
  | ldB x =>
    simp only [exec, execLdB]
    split
    · exact raise_answers _ s
    · exact finishAt_answers s _ _
  | ldMemVx x =>
    simp only [exec, execLdMemVx]
    split
    · exact raise_answers _ s
    · exact finishWithI_answers s _ _
  | ldVxMem x =>
    simp only [exec, execLdVxMem]
    split
    · exact raise_answers _ s
    · exact finishWithI_answers s _ _
  | _ => exact finishAt_answers s _ _

/-! ## The transitions of MODE -/

/-- The wait of FX0A begins: the queue was empty, and KW_REG is the instruction's register
(spec/45_timers_keys_random.md R334). -/
def StartsWait (i : Instr) (s t : State) : Prop := s.kq = [] ∧ t.mode = .keyWait ∧ i = .ldVxK t.kwReg

/-- Of the instructions that complete, only FX0A on an empty queue changes MODE. -/
theorem completes_mode {i : Instr} {s t : State} (h : Completes i s t) : t.mode = s.mode ∨ StartsWait i s t := by
  cases i with
  | ret =>
    obtain ⟨_, -, rfl⟩ := h
    exact .inl rfl
  | call =>
    obtain ⟨_, _, -, -, rfl⟩ := h
    exact .inl rfl
  | shr x | shl x =>
    obtain ⟨v, d, e⟩ := shiftWrites_frame s x _ _
    rw [Completes, e] at h
    obtain ⟨_, -, rfl⟩ := h
    exact .inl rfl
  | ldVxK x =>
    rcases h with ⟨hk, rfl⟩ | ⟨_, _, -, _, -, rfl⟩
    · exact .inr ⟨hk, rfl, rfl⟩
    · exact .inl rfl
  | addI | ldF | ldVxMem =>
    obtain ⟨_, _, -, -, rfl⟩ := h
    exact .inl rfl
  | ldMemVx =>
    obtain ⟨-, _, _, -, -, rfl⟩ := h
    exact .inl rfl
  | ldB =>
    obtain ⟨-, _, -, rfl⟩ := h
    exact .inl rfl
  | _ =>
    obtain ⟨_, -, rfl⟩ := h
    exact .inl rfl

theorem exec_mode {i : Instr} {s t : State} (h : exec i s = .next t) :
    t.mode = .fault ∨ t.mode = s.mode ∨ StartsWait i s t := by
  rcases exec_next h with ⟨code, -, rfl⟩ | hc
  · exact .inl rfl
  · exact .inr (completes_mode hc)

theorem ite_publish_mode (u : State) : (if u.mode = .run then publish u else u).mode = u.mode := by
  split <;> rfl

theorem ite_publish_kwReg (u : State) : (if u.mode = .run then publish u else u).kwReg = u.kwReg := by
  split <;> rfl

/-- The rows of spec/40_cycle_fsm.md R141 that change MODE, each with its condition: three leave RUN and three leave
KEY_WAIT. -/
def ModeChange (s t : State) : Prop :=
  (s.mode = .run ∧ s.cancel = true ∧ t.mode = .terminated) ∨
  (s.mode = .run ∧ s.cancel = false ∧ s.kq = [] ∧ t.mode = .keyWait ∧
    ∃ w, fetch s = some w ∧ decode s.params w = .instr (.ldVxK t.kwReg)) ∨
  (s.mode = .run ∧ s.cancel = false ∧ t.mode = .fault) ∨
  (s.mode = .keyWait ∧ s.kq ≠ [] ∧ s.pc.toNat + 2 ≤ s.limit ∧ t.mode = .run) ∨
  (s.mode = .keyWait ∧ s.kq ≠ [] ∧ s.limit < s.pc.toNat + 2 ∧ t.mode = .fault ∧ t.fcode = .pcOverflow) ∨
  (s.mode = .keyWait ∧ s.cancel = true ∧ t.mode = .terminated)

theorem modeChange_terminate {s : State} (hm : s.mode = .run ∨ s.mode = .keyWait) (hc : s.cancel = true) :
    ModeChange s { s with mode := .terminated } := by
  rcases hm with hm | hm
  · exact .inl ⟨hm, hc, rfl⟩
  · exact .inr (.inr (.inr (.inr (.inr ⟨hm, hc, rfl⟩))))

theorem modeChange_fault {s t : State} (hm : s.mode = .run) (hc : s.cancel = false) (ht : t.mode = .fault) :
    ModeChange s t := .inr (.inr (.inl ⟨hm, hc, ht⟩))

theorem modeChange_wait {s t : State} {w : Word} (hm : s.mode = .run) (hc : s.cancel = false) (hk : s.kq = [])
    (ht : t.mode = .keyWait) (hf : fetch s = some w) (hd : decode s.params w = .instr (.ldVxK t.kwReg)) :
    ModeChange s t := .inr (.inl ⟨hm, hc, hk, ht, w, hf, hd⟩)

theorem runCycle_mode {s t : State} (hm : s.mode = .run) (h : runCycle s = .next t) :
    t.mode = s.mode ∨ ModeChange s t := by
  rcases runCycle_next h with ⟨hc, rfl⟩ | ⟨hc, (rfl | rfl) | ⟨w, i, u, hf, hd, hu, rfl⟩⟩
  · exact .inr (modeChange_terminate (.inl hm) hc)
  · exact .inr (modeChange_fault hm hc rfl)
  · exact .inr (modeChange_fault hm hc rfl)
  · have hmode := ite_publish_mode u
    rcases exec_mode hu with ht | ht | ⟨hk, ht, rfl⟩
    · exact .inr (modeChange_fault hm hc (hmode.trans ht))
    · exact .inl (hmode.trans ht)
    · rw [← ite_publish_kwReg] at hd
      exact .inr (modeChange_wait hm hc hk (hmode.trans ht) hf hd)

theorem keyWaitStep_mode {s t : State} (hm : s.mode = .keyWait) (h : keyWaitStep s = .next t) :
    t.mode = s.mode ∨ ModeChange s t := by
  rcases keyWaitStep_next h with ⟨hc, rfl⟩ | ⟨-, -, rfl⟩ | ⟨k, rest, hk, ⟨hpc, rfl⟩ | ⟨hpc, rfl⟩⟩
  · exact .inr (modeChange_terminate (.inr hm) hc)
  · exact .inl rfl
  · exact .inr (.inr (.inr (.inr (.inr (.inl ⟨hm, by simp [hk], hpc, rfl, rfl⟩)))))
  · exact .inr (.inr (.inr (.inr (.inl ⟨hm, by simp [hk], hpc, rfl⟩))))

theorem loopStep_mode {s t : State} (h : loopStep s = .next t) : t.mode = s.mode ∨ ModeChange s t := by
  rcases loopStep_next h with ⟨hm, h⟩ | ⟨hm, h⟩
  · exact runCycle_mode hm h
  · exact keyWaitStep_mode hm h

/-- The ticker, the host and the consumer keep MODE. -/
theorem agentStep_mode {m : Move} {s t : State} (h : agentStep m s = .next t) :
    t.mode = s.mode ∨ ModeChange s t := by
  cases m with
  | loop =>
    rcases agentStep_loop_next h with h | rfl
    · exact loopStep_mode h
    · exact .inl rfl
  | tick =>
    cases h
    rcases tick_cases s with e | e <;> exact .inl (by rw [e])
  | key | cancel | takeFrame | dropFrame =>
    cases h
    exact .inl rfl

/-- Settles O51: a step that changes MODE is the loop's, and no row of R141 reads the agenda. -/
theorem modeTransitions : Obligations.ModeTransitions := by
  intro s t h hne
  rcases nextStep_next h with ⟨-, h⟩ | ⟨m, rest, -, h⟩
  · exact (loopStep_mode h).resolve_left hne
  · exact (agentStep_mode h).resolve_left hne

/-! ## Publication -/

theorem exec_frames {i : Instr} {s t : State} (h : exec i s = .next t) : t.frames = s.frames := by
  obtain ⟨-, -, -, -, -, -, -, -, -, hframes, -⟩ := otherStateIsWrittenAsListed i s t h
  exact hframes

/-- Settles O52: instructions publish nothing themselves, and the end of a cycle and a KEY_WAIT completion publish where
they leave the loop in RUN. -/
theorem oneFramePerCompletedInstruction : Obligations.OneFramePerCompletedInstruction := by
  intro s t h
  rcases loopStep_next h with ⟨-, h⟩ | ⟨hm, h⟩
  · rcases runCycle_next h with ⟨-, rfl⟩ | ⟨-, (rfl | rfl) | ⟨w, i, u, -, -, hu, rfl⟩⟩
    · exact ⟨nofun, fun _ => rfl⟩
    · exact ⟨nofun, fun _ => rfl⟩
    · exact ⟨nofun, fun _ => rfl⟩
    · rw [ite_publish_mode, ← exec_frames hu]
      exact ⟨fun hr => by simp [hr], fun hr => by simp [hr]⟩
  · rcases keyWaitStep_next h with ⟨-, rfl⟩ | ⟨-, -, rfl⟩ | ⟨k, rest, -, ⟨-, rfl⟩ | ⟨-, rfl⟩⟩
    · exact ⟨nofun, fun _ => rfl⟩
    · exact ⟨fun hr => by simp [hm] at hr, fun _ => rfl⟩
    · exact ⟨nofun, fun _ => rfl⟩
    · exact ⟨fun _ => rfl, fun hr => absurd rfl hr⟩

/-! ## The system's step by the agenda -/

theorem step_of_agenda_nil {s : State} (h : s.agenda = []) : step s = loopStep s := by
  simp only [step, nextStep, h]

theorem step_of_agenda_cons {s : State} {m : Move} {rest : List Move} (h : s.agenda = m :: rest) :
    step s = agentStep m { s with agenda := rest } := by
  simp only [step, nextStep, h]

theorem loopAlive_iff (s : State) : loopAlive s = true ↔ s.mode = .run ∨ s.mode = .keyWait := by
  simp [loopAlive]

theorem agentStep_loop_alive {s : State} (h : s.mode = .run ∨ s.mode = .keyWait) :
    agentStep .loop s = loopStep s := if_pos ((loopAlive_iff s).mpr h)

/-- Settles O53: an empty agenda leaves the step to the loop, and otherwise the head's agent takes it. -/
theorem agendaSchedulesTheAgents : Obligations.AgendaSchedulesTheAgents := by
  refine ⟨fun s => step_of_agenda_nil, fun s rest =>
    ⟨fun k => step_of_agenda_cons, step_of_agenda_cons, fun h => ?_, fun n => step_of_agenda_cons,
      step_of_agenda_cons, fun h hm => ?_⟩⟩
  · rw [step_of_agenda_cons h, List.drop_one]
    rfl
  · exact (step_of_agenda_cons h).trans (agentStep_loop_alive hm)

/-! ## The RUN cycle -/

theorem loopStep_run {s : State} (h : s.mode = .run) : loopStep s = runCycle s := by
  simp only [loopStep, h]

theorem runCycle_cancel {s : State} (h : s.cancel = true) : runCycle s = .next { s with mode := .terminated } :=
  if_pos h

section Fetched

variable {s : State} {w : Word} (hc : s.cancel = false) (hf : fetch s = some w)
include hc hf

theorem runCycle_illegal (hd : decode s.params w = .illegal) : runCycle s = raise .illegalOpcode s := by
  simp [runCycle, hc, hf, hd]

theorem runCycle_ambiguous (hd : decode s.params w = .ambiguous) :
    runCycle s = .refused (.ambiguousOperator0 w) := by
  simp [runCycle, hc, hf, hd]

theorem loopStep_instr {i : Instr} (hr : s.mode = .run) (hd : decode s.params w = .instr i) :
    loopStep s = publishIfRun (exec i s) := by
  simp [loopStep_run hr, runCycle, hc, hf, hd]

end Fetched

/-- Settles O45: the loop's step in RUN ends the cycle of the decoded instruction, whether the agenda is empty or names
the loop; neither the fetch nor the decoder reads the agenda. -/
theorem stepRunsTheDecodedInstruction : Obligations.StepRunsTheDecodedInstruction := by
  intro s t w i hr hc hf hd he
  constructor
  · intro ha
    rw [step_of_agenda_nil ha, loopStep_instr hc hf hr hd, he]
    rfl
  · intro rest
    rw [step_of_agenda_cons (s := { s with agenda := .loop :: rest }) rfl,
      agentStep_loop_alive (s := { s with agenda := rest }) (.inl hr),
      loopStep_instr (s := { s with agenda := rest }) hc hf hr hd]
    cases exec i { s with agenda := rest } <;> rfl

/-- Settles O47: cancellation is the cycle's first test, and a word that is not an instruction ends the cycle. -/
theorem cycleStopsBeforeExecute : Obligations.CycleStopsBeforeExecute := by
  intro s hr
  rw [loopStep_run hr]
  exact ⟨runCycle_cancel, fun w hc hf hd => runCycle_illegal hc hf hd,
    fun w hc hf hd => runCycle_ambiguous hc hf hd⟩

/-! ## The wait for a key -/

theorem loopStep_keyWait {s : State} (h : s.mode = .keyWait) : loopStep s = keyWaitStep s := by
  simp only [loopStep, h]

theorem keyWaitStep_complete {s : State} {k : Nibble} {rest : List Nibble} (hc : s.cancel = false)
    (hk : s.kq = k :: rest) : keyWaitStep s = keyCompletion s k rest := by
  simp [keyWaitStep, hc, hk]

theorem keyWaitStep_cancel {s : State} (hc : s.cancel = true) (hk : s.kq = []) :
    keyWaitStep s = keyCancellation s := by
  simp [keyWaitStep, hc, hk]

/-- Completion and cancellation both enabled: one of the two (spec/40_cycle_fsm.md R152, log entry 9). -/
theorem keyWaitStep_both {s : State} {k : Nibble} {rest : List Nibble} (hc : s.cancel = true)
    (hk : s.kq = k :: rest) : keyWaitStep s = keyCompletion s k rest ∨ keyWaitStep s = keyCancellation s := by
  cases hw : Config.freeWait s.draws with
  | complete => exact .inl (by simp [keyWaitStep, hc, hk, hw])
  | cancel => exact .inr (by simp [keyWaitStep, hc, hk, hw])

/-- A completion answers the state with the event stored and published, or PC_OVERFLOW (spec/40_cycle_fsm.md R150). -/
theorem keyCompletion_eq (s : State) (k : Nibble) (rest : List Nibble) :
    keyCompletion s k rest =
      .next (if s.pc.toNat + 2 ≤ s.limit then keyDone s k rest else raiseFault .pcOverflow s) := by
  split
  · next hpc => exact keyCompletion_ok hpc
  · next hpc => exact keyCompletion_fault (by omega)

/-- Settles O48: what the loop's step in KEY_WAIT is for each of the enabled steps. -/
theorem keyWaitCompletesOrCancels : Obligations.KeyWaitCompletesOrCancels := by
  rintro s k rest _ hm rfl
  rw [loopStep_keyWait hm]
  refine ⟨fun hc hk => ?_, fun hc hk => keyWaitStep_cancel hc hk, fun hc hk => ?_⟩
  · exact (keyWaitStep_complete hc hk).trans (keyCompletion_eq s k rest)
  · exact (keyWaitStep_both hc hk).imp_left (·.trans (keyCompletion_eq s k rest))

/-! ## The terminal states -/

section Terminal

variable {s : State} (h : s.mode = .terminated ∨ s.mode = .fault)
include h

theorem loopAlive_terminal : loopAlive s = false := by
  rcases h with h | h <;> simp [loopAlive, h]

theorem loopStep_terminal (t : State) : loopStep s ≠ .next t := by
  rcases h with h | h <;> simp [loopStep, h]

theorem tick_terminal : tick s = s := by
  simp [tick, tickEnabled, loopAlive_terminal h]

theorem agentStep_loop_terminal : agentStep .loop s = .next s := by
  simp [agentStep, loopAlive_terminal h]

end Terminal

/-- Settles O49: the loop and the ticker do nothing, and the host and the consumer reach their own fields only. -/
theorem terminalStatesAreFinal : Obligations.TerminalStatesAreFinal := by
  intro s h
  refine ⟨loopStep_terminal h, tick_terminal h, fun m => ?_⟩
  cases m with
  | loop => exact ⟨_, _, _, agentStep_loop_terminal h, .refl _⟩
  | tick => exact ⟨_, _, _, congrArg _ (tick_terminal h), .refl _⟩
  | key k => exact ⟨_, _, _, rfl, .refl _⟩
  | cancel => exact ⟨_, _, _, rfl, .refl _⟩
  | takeFrame => exact ⟨_, _, _, rfl, List.tail_sublist _⟩
  | dropFrame n => exact ⟨_, _, _, rfl, List.eraseIdx_sublist _ _⟩

end Sys2Proof.Machine
end

section
/-! Statements of the family `41_framebuffer`: the sprite engine, CLS and DXYN. -/

namespace Sys2Proof.Machine

/-! ## Rows of the framebuffer -/

/-- Framebuffer row `t mod 32`. -/
def rowAt (fb : Frame) (t : Nat) : Row := fb[t % 32]'(Nat.mod_lt t (by decide))

theorem rowAt_of_lt (fb : Frame) {t : Nat} (ht : t < 32) : rowAt fb t = fb[t] := by
  simp [rowAt, Nat.mod_eq_of_lt ht]

theorem rowAt_congr (fb : Frame) {t u : Nat} (h : t % 32 = u % 32) : rowAt fb t = rowAt fb u := by
  simp only [rowAt, h]

theorem pixel_eq_rowAt (fb : Frame) (r : Nat) {c : Nat} (hc : c < 64) : pixel fb r c = (rowAt fb r).getLsbD c := by
  rw [pixel, Nat.mod_eq_of_lt hc, rowAt]

theorem frame_ext {fb fb' : Frame} (h : ∀ t, rowAt fb t = rowAt fb' t) : fb = fb' :=
  Vector.ext fun t ht => by rw [← rowAt_of_lt fb ht, ← rowAt_of_lt fb' ht, h]

/-- The framebuffer with the mask `m` XORed into row `t mod 32`. -/
def xorRow (fb : Frame) (t : Nat) (m : Row) : Frame :=
  fb.set (t % 32) (rowAt fb t ^^^ m) (Nat.mod_lt t (by decide))

theorem rowAt_xorRow_same (fb : Frame) (t : Nat) (m : Row) : rowAt (xorRow fb t m) t = rowAt fb t ^^^ m :=
  Vector.getElem_set_self _

theorem rowAt_xorRow_other (fb : Frame) {t u : Nat} (m : Row) (h : t % 32 ≠ u % 32) :
    rowAt (xorRow fb t m) u = rowAt fb u := Vector.getElem_set_ne _ _ h

/-! ## The rows of a sprite -/

/-- The pixels that a row byte inverts in its row: all eight columns of it (spec/41_framebuffer.md R189). -/
def rowMask (x : Nat) (b : Byte) : Row := colsMask x b 8 0

theorem rowMask_bit (x : Nat) (b : Byte) {k : Nat} (hk : k < 64) :
    (rowMask x b).getLsbD k = true ↔ ∃ c, c < 8 ∧ (x + c) % 64 = k ∧ b.getLsbD (7 - c) = true := by
  simp [rowMask, colsMask_bit x b 8 0 k hk]

/-- Drawing sprite row `r`: its mask is XORed into its row, and collides where it meets a pixel that is on. -/
theorem drawRows_cons (x y r : Nat) (b : Byte) (bs : List Byte) (acc : Frame × Bool) :
    drawRows x y r (b :: bs) acc = drawRows x y (r + 1) bs (xorRow acc.1 (y + r) (rowMask x b),
      acc.2 || decide (rowAt acc.1 (y + r) &&& rowMask x b ≠ 0#64)) := by
  rw [drawRows, drawCols_eq x (Nat.mod_lt _ (by decide)) b 8 0 acc (by decide)]
  rfl

theorem drawRows_row_other (x y : Nat) {t : Nat} (bs : List Byte) :
    ∀ (r : Nat) (acc : Frame × Bool), (∀ j, j < bs.length → (y + r + j) % 32 ≠ t % 32) →
      rowAt (drawRows x y r bs acc).1 t = rowAt acc.1 t := by
  induction bs with
  | nil => intro r acc _; rfl
  | cons b bs ih =>
    intro r acc h
    rw [drawRows_cons, ih]
    · exact rowAt_xorRow_other _ _ (h 0 (Nat.succ_pos _))
    · intro j hj
      rw [show y + (r + 1) + j = y + r + (j + 1) by omega]
      exact h (j + 1) (Nat.succ_lt_succ hj)

/-- Up to 32 sprite rows have distinct target rows, so each target is XORed once. -/
theorem drawRows_row (x y : Nat) (bs : List Byte) :
    ∀ (r : Nat) (acc : Frame × Bool), bs.length ≤ 32 → ∀ (j : Nat) (hj : j < bs.length),
      rowAt (drawRows x y r bs acc).1 (y + r + j) = rowAt acc.1 (y + r + j) ^^^ rowMask x bs[j] := by
  induction bs with
  | nil => intro r acc _ j hj; cases hj
  | cons b bs ih =>
    intro r acc hlen j hj
    rw [List.length_cons] at hlen hj
    rw [drawRows_cons]
    cases j with
    | zero =>
      rw [drawRows_row_other x y bs _ _ (by omega)]
      exact rowAt_xorRow_same _ _ _
    | succ j =>
      rw [show y + r + (j + 1) = y + (r + 1) + j by omega, ih _ _ (by omega) j (by omega),
        rowAt_xorRow_other _ _ (by omega)]
      rfl

/-- No row is drawn before its own sprite row, so the collision is with the pixels before the draw. -/
theorem drawRows_collides (x y : Nat) (bs : List Byte) :
    ∀ (r : Nat) (acc : Frame × Bool), bs.length ≤ 32 → ((drawRows x y r bs acc).2 = true ↔
      acc.2 = true ∨ ∃ (j : Nat) (hj : j < bs.length), rowAt acc.1 (y + r + j) &&& rowMask x bs[j] ≠ 0#64) := by
  induction bs with
  | nil => intro r acc _; simp [drawRows]
  | cons b bs ih =>
    intro r acc hlen
    rw [List.length_cons] at hlen
    have later : ∀ j, j < bs.length →
        rowAt (xorRow acc.1 (y + r) (rowMask x b)) (y + (r + 1) + j) = rowAt acc.1 (y + r + (j + 1)) := fun j hj => by
      rw [rowAt_xorRow_other _ _ (by omega), show y + (r + 1) + j = y + r + (j + 1) by omega]
    rw [drawRows_cons, ih _ _ (by omega), Bool.or_eq_true, decide_eq_true_eq, or_assoc]
    refine or_congr_right ⟨?_, ?_⟩
    · rintro (h | ⟨j, hj, h⟩)
      · exact ⟨0, Nat.succ_pos _, h⟩
      · exact ⟨j + 1, Nat.succ_lt_succ hj, by rwa [later j hj] at h⟩
    · rintro ⟨_ | j, hj, h⟩
      · exact .inl h
      · have hj' : j < bs.length := Nat.lt_of_succ_lt_succ hj
        exact .inr ⟨j, hj', by rwa [later j hj']⟩

section Sprite

variable (fb : Frame) (x y : Nat) {rows : List Byte}

theorem drawSprite_row_other {t : Nat} (h : ∀ r, r < rows.length → (y + r) % 32 ≠ t % 32) :
    rowAt (drawSprite fb x y rows).1 t = rowAt fb t := drawRows_row_other x y rows 0 (fb, false) h

variable (hlen : rows.length ≤ 32)
include hlen

theorem drawSprite_row {r : Nat} (hr : r < rows.length) :
    rowAt (drawSprite fb x y rows).1 (y + r) = rowAt fb (y + r) ^^^ rowMask x rows[r] :=
  drawRows_row x y rows 0 (fb, false) hlen r hr

theorem drawSprite_collides : (drawSprite fb x y rows).2 = true ↔
    ∃ (r : Nat) (hr : r < rows.length), rowAt fb (y + r) &&& rowMask x rows[r] ≠ 0#64 := by
  simpa [drawSprite] using drawRows_collides x y rows 0 (fb, false) hlen

/-- A draw XORs into each row a mask that the framebuffer has no part in, and collides where it meets a pixel that is
on. -/
theorem drawSprite_xors_row (t : Nat) : ∃ m : Row, ∀ fb : Frame,
    rowAt (drawSprite fb x y rows).1 t = rowAt fb t ^^^ m ∧
      (rowAt fb t &&& m ≠ 0#64 → (drawSprite fb x y rows).2 = true) := by
  by_cases ht : ∃ r, r < rows.length ∧ (y + r) % 32 = t % 32
  · obtain ⟨r, hr, ht⟩ := ht
    refine ⟨rowMask x rows[r], fun fb => ?_⟩
    rw [← rowAt_congr _ ht, ← rowAt_congr fb ht]
    exact ⟨drawSprite_row fb x y hlen hr, fun h => (drawSprite_collides fb x y hlen).mpr ⟨r, hr, h⟩⟩
  · refine ⟨0#64, fun fb => ⟨?_, by simp⟩⟩
    rw [BitVec.xor_zero, drawSprite_row_other fb x y fun r hr e => ht ⟨r, hr, e⟩]

end Sprite

/-- Settles O31: a byte's mask is what its eight columns draw, and the rows of a sprite do not meet. -/
theorem spriteRowsInParallel : Obligations.SpriteRowsInParallel := by
  intro fb x y rows mask hlen hmask
  obtain rfl : mask = rowMask x := funext fun b => (hmask b).trans (colsMask_all x b).symm
  refine ⟨fun r hr => drawSprite_row fb x y (by omega) hr, fun t ht => ?_, drawSprite_collides fb x y (by omega)⟩
  have same := drawSprite_row_other fb x y (t := t) (by rwa [Nat.mod_eq_of_lt t.isLt])
  rwa [rowAt_of_lt _ t.isLt, rowAt_of_lt _ t.isLt] at same

/-! ## Collisions pixel by pixel -/

theorem meets_rowMask_iff (w : Row) (x : Nat) (b : Byte) :
    w &&& rowMask x b ≠ 0#64 ↔ ∃ c, c < 8 ∧ b.getLsbD (7 - c) = true ∧ w.getLsbD ((x + c) % 64) = true := by
  simp only [row_ne_zero, BitVec.getLsbD_and, Bool.and_eq_true]
  constructor
  · rintro ⟨k, hk, hw, hm⟩
    obtain ⟨c, hc, rfl, hb⟩ := (rowMask_bit x b hk).mp hm
    exact ⟨c, hc, hb, hw⟩
  · rintro ⟨c, hc, hb, hw⟩
    have hk : (x + c) % 64 < 64 := Nat.mod_lt _ (by decide)
    exact ⟨_, hk, hw, (rowMask_bit x b hk).mpr ⟨c, hc, rfl, hb⟩⟩

/-- A mask meets a pixel that is on exactly where XORing it turns one off. -/
theorem meets_iff_turnsOff (w m : Row) :
    w &&& m ≠ 0#64 ↔ ∃ c, c < 64 ∧ w.getLsbD c = true ∧ (w ^^^ m).getLsbD c = false := by
  rw [row_ne_zero]
  refine exists_congr fun c => and_congr_right fun _ => ?_
  rw [BitVec.getLsbD_and, BitVec.getLsbD_xor]
  cases w.getLsbD c <;> cases m.getLsbD c <;> decide

/-- Some pixel is on in `fb` and off in `fb'`. -/
def TurnsOff (fb fb' : Frame) : Prop :=
  ∃ r c : Nat, r < 32 ∧ c < 64 ∧ pixel fb r c = true ∧ pixel fb' r c = false

theorem turnsOff_iff (fb fb' : Frame) : TurnsOff fb fb' ↔
    ∃ t c : Nat, c < 64 ∧ (rowAt fb t).getLsbD c = true ∧ (rowAt fb' t).getLsbD c = false := by
  constructor
  · rintro ⟨r, c, -, hc, h⟩
    rw [pixel_eq_rowAt _ _ hc, pixel_eq_rowAt _ _ hc] at h
    exact ⟨r, c, hc, h⟩
  · rintro ⟨t, c, hc, h⟩
    refine ⟨t % 32, c, Nat.mod_lt _ (by decide), hc, ?_⟩
    rwa [pixel_eq_rowAt _ _ hc, pixel_eq_rowAt _ _ hc, rowAt_congr fb (Nat.mod_mod t 32),
      rowAt_congr fb' (Nat.mod_mod t 32)]

section Sprite

variable (fb : Frame) (x y : Nat) {rows : List Byte} (hlen : rows.length ≤ 32)
include hlen

theorem drawSprite_collides_iff_turnsOff :
    (drawSprite fb x y rows).2 = true ↔ TurnsOff fb (drawSprite fb x y rows).1 := by
  rw [drawSprite_collides fb x y hlen, turnsOff_iff]
  constructor
  · rintro ⟨r, hr, h⟩
    rw [meets_iff_turnsOff, ← drawSprite_row fb x y hlen hr] at h
    exact ⟨y + r, h⟩
  · rintro ⟨t, c, hc, hon, hoff⟩
    obtain ⟨m, hm⟩ := drawSprite_xors_row x y hlen t
    obtain ⟨hrow, hcollides⟩ := hm fb
    rw [hrow] at hoff
    exact (drawSprite_collides fb x y hlen).mp (hcollides ((meets_iff_turnsOff _ _).mpr ⟨c, hc, hon, hoff⟩))

/-- XORing the same masks into the same rows again undoes them (spec/41_framebuffer.md R191). -/
theorem drawSprite_twice : (drawSprite (drawSprite fb x y rows).1 x y rows).1 = fb := by
  refine frame_ext fun t => ?_
  obtain ⟨m, hm⟩ := drawSprite_xors_row x y hlen t
  rw [(hm _).1, (hm fb).1, BitVec.xor_assoc, BitVec.xor_self, BitVec.xor_zero]

end Sprite

/-- Settles O32: row by row, a mask meets a pixel that is on where one of its bits lands on it, and where its XOR turns
one off. -/
theorem collisionIffSomePixelTurnedOff : Obligations.CollisionIffSomePixelTurnedOff := by
  intro fb x y rows hlen
  refine ⟨?_, drawSprite_collides_iff_turnsOff fb x y (by omega)⟩
  have hpixel : ∀ r c, pixel fb ((y + r) % 32) ((x + c) % 64) = (rowAt fb (y + r)).getLsbD ((x + c) % 64) :=
    fun r c => by rw [pixel_eq_rowAt _ _ (Nat.mod_lt _ (by decide)), rowAt_congr fb (Nat.mod_mod _ 32)]
  simp only [drawSprite_collides fb x y (show rows.length ≤ 32 by omega), meets_rowMask_iff, hpixel]
  constructor
  · rintro ⟨r, hr, c, h⟩
    exact ⟨r, c, hr, h⟩
  · rintro ⟨r, c, hr, h⟩
    exact ⟨r, hr, c, h⟩

/-! ## DXYN -/

/-- The `n` bytes at I. -/
def spriteBytes (s : State) (n : Nibble) : List Byte :=
  (List.range n.toNat).map fun k => Memory.read s.mem (s.i.toNat + k)

theorem spriteBytes_length_le (s : State) (n : Nibble) : (spriteBytes s n).length ≤ 32 := by
  have hn := n.isLt
  simp only [spriteBytes, List.length_map, List.length_range]
  omega

theorem spriteBytes_congr {s u : State} {n : Nibble} (hi : u.i = s.i)
    (h : ∀ k, k < n.toNat → Memory.read u.mem (s.i.toNat + k) = Memory.read s.mem (s.i.toNat + k)) :
    spriteBytes u n = spriteBytes s n := by
  rw [spriteBytes, hi]
  exact List.map_congr_left fun k hk => h k (List.mem_range.mp hk)

/-- What DXYN draws: the bytes at I, at Vx and Vy, and whether they collide (spec/41_framebuffer.md R188). -/
def spriteDraw (s : State) (x y n : Nibble) : Frame × Bool :=
  drawSprite s.fb (s.getV x).toNat (s.getV y).toNat (spriteBytes s n)

theorem exec_drw_completed {s t : State} {x y n : Nibble} (h : exec (.drw x y n) s = .next t) (ht : t.mode ≠ .fault) :
    t.fb = (spriteDraw s x y n).1 ∧ t.getV vF = flagByte (spriteDraw s x y n).2 := by
  rcases exec_next h with ⟨code, -, rfl⟩ | ⟨pc, -, rfl⟩
  · exact absurd rfl ht
  · exact ⟨rfl, getV_setV_same _ _ _⟩

theorem flagByte_eq_one_iff (c : Bool) : flagByte c = 1#8 ↔ c = true := by
  cases c <;> decide

/-- Settles O33: the second draw undoes the first, so the pixels it turns off are those the first turned on. -/
theorem doubleDrawRestores : Obligations.DoubleDrawRestores := by
  intro s t u w x y n hst ht hfb hx hy hi hmem huw hw
  have hlen := spriteBytes_length_le s n
  have htfb := (exec_drw_completed hst ht).1
  obtain ⟨hwfb, hwf⟩ := exec_drw_completed huw hw
  rw [spriteDraw, hfb, hx, hy, spriteBytes_congr hi hmem] at hwfb hwf
  have restored : w.fb = s.fb := by
    rw [hwfb, htfb]
    exact drawSprite_twice _ _ _ hlen
  refine ⟨restored, ?_⟩
  calc w.getV vF = 1#8
    _ ↔ TurnsOff t.fb w.fb := by rw [hwf, flagByte_eq_one_iff, drawSprite_collides_iff_turnsOff _ _ _ hlen, ← hwfb]
    _ ↔ ∃ r c : Nat, r < 32 ∧ c < 64 ∧ pixel s.fb r c = false ∧ pixel t.fb r c = true := by
      simp only [TurnsOff, restored, and_comm (a := pixel t.fb _ _ = true)]

/-- Past the bounds check DXYN ends by checking pc (spec/41_framebuffer.md R188). -/
theorem exec_drw_inRange {s : State} (x y : Nibble) {n : Nibble}
    (h : n.toNat = 0 ∨ s.i.toNat + n.toNat ≤ Config.memSize) :
    exec (.drw x y n) s = finish s (drawWrites s x y (spriteBytes s n)) := by
  simp only [exec, execDrw, memRead_ok h, spriteBytes]

theorem exec_drw_oob {s : State} (x y : Nibble) {n : Nibble} (hn : 0 < n.toNat)
    (h : Config.memSize < s.i.toNat + n.toNat) : exec (.drw x y n) s = raise .memOob s := by
  simp only [exec, execDrw, memRead_oob hn h]

/-- Settles O30: MEM_OOB where a byte at I is outside, otherwise the draw's writes or PC_OVERFLOW. -/
theorem drwDrawsTheSpriteAtI : Obligations.DrwDrawsTheSpriteAtI := by
  intro s p x y n
  rw [oob_iff]
  refine ⟨decode_encode_of_ne_sys p (i := .drw x y n) nofun, ?inRange, fun ⟨hn, h⟩ => exec_drw_oob x y hn h,
    fun h hpc => ?pcOverflow⟩
  case inRange =>
    rintro _ rfl h hpc
    rw [exec_drw_inRange x y (by omega), finish_ok _ hpc]
    rfl
  case pcOverflow =>
    rw [exec_drw_inRange x y (by omega), finish_fault _ hpc]
    rfl

/-! ## CLS -/

theorem pixel_clearFrame (r c : Nat) : pixel clearFrame r c = false := by
  simp [pixel, clearFrame]

/-- Settles O29: CLS writes the cleared framebuffer and ends by checking pc. -/
theorem clsClearsEveryPixel : Obligations.ClsClearsEveryPixel := fun _ p =>
  ⟨decode_encode_of_ne_sys p (i := .cls) nofun, fun hpc => ⟨clearFrame, finish_ok _ hpc, pixel_clearFrame⟩,
    fun hpc => finish_fault _ hpc⟩

end Sys2Proof.Machine
end

section
/-! Statements of the family `42_control_flow`: SYS, the jumps, the call stack and the skips. -/

namespace Sys2Proof.Machine

/-! ## CALL and RET -/

theorem exec_ret_succ {s : State} {k : Fin 16} (h : s.sp = k.succ) :
    exec .ret s = .next { s with pc := s.stack[k], sp := k.castSucc } := by
  rcases pop_cases s with ⟨h0, -⟩ | ⟨j, hj, e⟩
  · exact absurd (h.symm.trans h0) (Fin.succ_ne_zero k)
  · obtain rfl : j = k := Fin.succ_injective _ (hj.symm.trans h)
    simp only [exec, execRet, e]

theorem exec_ret_empty {s : State} (h : s.sp = 0) : exec .ret s = raise .stackUnderflow s := by
  rcases pop_cases s with ⟨-, e⟩ | ⟨j, hj, -⟩
  · simp only [exec, execRet, e]
  · exact absurd (hj.symm.trans h) (Fin.succ_ne_zero j)

/-- A stack that is not full has a next entry. -/
theorem exists_castSucc_of_sp_ne {s : State} (h : s.sp ≠ 16) : ∃ k : Fin 16, s.sp = k.castSucc := by
  obtain ⟨k, hk⟩ := Fin.exists_castSucc_eq.mpr h
  exact ⟨k, hk.symm⟩

theorem exec_call_full {s : State} (nnn : Addr12) (h : s.sp = 16) :
    exec (.call nnn) s = raise .stackOverflow s := if_pos (congrArg Fin.val h)

theorem exec_call_ok {s : State} (nnn : Addr12) {k : Fin 16} (hk : s.sp = k.castSucc)
    (hpc : s.pc.toNat + 2 ≤ s.limit) :
    exec (.call nnn) s =
      .next { s with stack := s.stack.set k (s.pc + 2#16), sp := k.succ, pc := zext16 nnn } := by
  have hroom : s.sp ≠ 16 := hk ▸ Fin.castSucc_ne_last k
  rcases push_cases s (s.pc + 2#16) with ⟨hfull, -⟩ | ⟨j, hj, e⟩
  · exact absurd hfull hroom
  · have hval : s.sp.val ≠ 16 := Fin.val_ne_of_ne hroom
    obtain rfl : j = k := Fin.castSucc_injective _ (hj.symm.trans hk)
    simp only [exec, execCall, if_neg hval, checkAddr_ok hpc, ofNat_add_toNat, e]

theorem exec_call_pcOverflow {s : State} (nnn : Addr12) (hroom : s.sp ≠ 16) (hpc : s.limit < s.pc.toNat + 2) :
    exec (.call nnn) s = raise .pcOverflow s := by
  have hval : s.sp.val ≠ 16 := Fin.val_ne_of_ne hroom
  simp only [exec, execCall, if_neg hval, checkAddr_none hpc]

/-- Settles O14: CALL leaves pc + 2 in the entry that RET pops, which is below SP and so still there in `u`. -/
theorem callThenRetReturns : Obligations.CallThenRetReturns := by
  intro s t u nnn hroom hpc hcall husp hustack
  obtain ⟨k, hk⟩ := exists_castSucc_of_sp_ne hroom
  rw [exec_call_ok nnn hk hpc] at hcall
  cases hcall
  have htop : u.stack[k] = s.pc + 2#16 := (hustack k k.val.lt_succ_self).trans (Vector.getElem_set_self k.isLt)
  rw [exec_ret_succ husp, htop, hk]

/-- Settles O8: the pop answers by SP, and no parameter matters to the word of RET. -/
theorem retPopsIntoPc : Obligations.RetPopsIntoPc := fun _ p =>
  ⟨decode_encode_of_ne_sys p (i := .ret) nofun, fun _ => exec_ret_succ, exec_ret_empty⟩

/-- Settles O10: the full stack is tested first, then pc + 2, and the push then has room. -/
theorem callPushesReturnAddress : Obligations.CallPushesReturnAddress := fun _ p nnn =>
  ⟨decode_encode_of_ne_sys p (i := .call nnn) nofun, fun _ => exec_call_ok nnn, exec_call_full nnn,
    exec_call_pcOverflow nnn⟩

/-! ## SYS and the jumps -/

/-- Settles O7: SYS makes no write before the end of an instruction. -/
theorem sysOnlyAdvancesPc : Obligations.SysOnlyAdvancesPc := fun s _ _ =>
  ⟨decode_encode_sys, finish_ok s, finish_fault s⟩

/-- Settles O9: JP checks nothing, every address being within every limit. -/
theorem jpWritesPc : Obligations.JpWritesPc := fun _ p nnn => ⟨decode_encode_of_ne_sys p (i := .jp nnn) nofun, rfl⟩

/-- The 16-bit sum of an address and a register, both zero-extended. -/
theorem ofNat_zext16_add (nnn : Addr12) (b : Byte) :
    BitVec.ofNat 16 ((zext16 nnn).toNat + b.toNat) = nnn.setWidth 16 + b.setWidth 16 := by
  rw [BitVec.ofNat_add, BitVec.ofNat_toNat, BitVec.ofNat_toNat, BitVec.setWidth_eq, zext16]

theorem zext16_toNat (nnn : Addr12) : (zext16 nnn).toNat = nnn.toNat :=
  BitVec.toNat_setWidth_of_le (by decide)

/-- Settles O13: the target of JP V0 is the sum, which the end of an instruction checks. -/
theorem jpV0AddsV0 : Obligations.JpV0AddsV0 := by
  intro s p nnn
  refine ⟨decode_encode_of_ne_sys p (i := .jpV0 nnn) nofun, ?_⟩
  rw [← zext16_toNat, ← ofNat_zext16_add]
  exact ⟨finishAt_ok s, finishAt_fault s⟩

/-! ## The skips -/

section Skip

variable (s : State) (p : Prop)

/-- A skip on `p`, with no other writes (spec/42_control_flow.md R210). -/
theorem skipIf_decide [Decidable p] (n : Nat) (hn : n = if p then 4 else 2) :
    (s.pc.toNat + n ≤ s.limit → skipIf s s (decide p) = .next { s with pc := s.pc + BitVec.ofNat 16 n }) ∧
    (s.limit < s.pc.toNat + n → skipIf s s (decide p) = .next { s with mode := .fault, fcode := .pcOverflow }) := by
  have hlength : n = if decide p then 4 else 2 := by simpa only [decide_eq_true_eq] using hn
  exact ⟨skipIf_ok hlength, skipIf_fault hlength⟩

/-- A skip on the negation of `p` takes the lengths the other way round. -/
theorem skipIf_decide_not [Decidable p] (n : Nat) (hn : n = if p then 2 else 4) :
    (s.pc.toNat + n ≤ s.limit → skipIf s s (decide ¬p) = .next { s with pc := s.pc + BitVec.ofNat 16 n }) ∧
    (s.limit < s.pc.toNat + n → skipIf s s (decide ¬p) = .next { s with mode := .fault, fcode := .pcOverflow }) :=
  skipIf_decide s (¬p) n (hn.trans (ite_not p 4 2).symm)

end Skip

/-- Settles O11: SE is a skip on the register being the byte, SNE one on its negation. -/
theorem skipsOnImmediate : Obligations.SkipsOnImmediate := fun s p x kk =>
  ⟨decode_encode_of_ne_sys p (i := .seImm x kk) nofun, decode_encode_of_ne_sys p (i := .sneImm x kk) nofun,
    skipIf_decide s _, skipIf_decide_not s _⟩

/-- Settles O12: operators 5 and 9 decode as said of them already, and the skips compare two registers. -/
theorem skipsOnRegisters : Obligations.SkipsOnRegisters := fun s p x y =>
  have ⟨own, strict, _⟩ := operatorsFiveAndNineTestTheLowNibble
  ⟨own p x y, fun n hn hp => strict p x y n hp hn, skipIf_decide s _, skipIf_decide_not s _⟩

end Sys2Proof.Machine
end

section
/-! Statements of the family `43_register_alu`: register loads, the ALU and the two shifts. -/

namespace Sys2Proof.Machine

/-! ## The operators of the ALU, as arithmetic of unsigned values (spec/43_register_alu.md R250) -/

theorem byte_sub_eq_ofInt (a b : Byte) : a - b = BitVec.ofInt 8 (a.toNat - b.toNat : Int) := by
  rw [Int.sub_eq_add_neg, BitVec.ofInt_add, BitVec.ofInt_neg, BitVec.ofInt_natCast, BitVec.ofInt_natCast,
    BitVec.ofNat_toNat, BitVec.ofNat_toNat, BitVec.setWidth_eq, BitVec.setWidth_eq, BitVec.sub_eq_add_neg]

theorem flagByte_decide (p : Prop) [Decidable p] : flagByte (decide p) = if p then 1#8 else 0#8 := by
  by_cases h : p <;> simp [flagByte, h]

theorem byte_shiftRight_one (a : Byte) : a >>> 1 = BitVec.ofNat 8 (a.toNat / 2) := by
  apply BitVec.eq_of_toNat_eq
  rw [BitVec.toNat_ushiftRight, BitVec.toNat_ofNat, Nat.shiftRight_eq_div_pow]
  omega

theorem byte_shiftLeft_one (a : Byte) : a <<< 1 = BitVec.ofNat 8 (2 * a.toNat) := by
  apply BitVec.eq_of_toNat_eq
  rw [BitVec.toNat_shiftLeft, BitVec.toNat_ofNat, Nat.shiftLeft_eq, Nat.mul_comm, pow_one]

theorem lsbOf_eq (a : Byte) : lsbOf a = BitVec.ofNat 8 (a.toNat % 2) := by
  apply BitVec.eq_of_toNat_eq
  rw [lsbOf, BitVec.toNat_and, BitVec.toNat_ofNat, BitVec.toNat_ofNat, Nat.one_mod, Nat.and_one_is_mod]
  omega

theorem msbOf_eq (a : Byte) : msbOf a = BitVec.ofNat 8 (a.toNat / 128) := by
  have := a.isLt
  rw [show msbOf a = lsbOf (a >>> 7) from rfl, lsbOf_eq, BitVec.toNat_ushiftRight, Nat.shiftRight_eq_div_pow]
  congr 1
  omega

/-- The bit that SHR shifts out, shifted again. -/
theorem lsbOf_shiftRight_one (a : Byte) : lsbOf a >>> 1 = 0#8 := by
  rw [lsbOf_eq, byte_shiftRight_one, BitVec.toNat_ofNat]
  congr 1
  omega

/-- The bit that SHL shifts out, shifted again. -/
theorem msbOf_shiftLeft_one (a : Byte) : msbOf a <<< 1 = BitVec.ofNat 8 (2 * (a.toNat / 128)) := by
  have hf : (msbOf a).toNat = a.toNat / 128 := by
    have := a.isLt
    rw [msbOf_eq, BitVec.toNat_ofNat]
    omega
  rw [byte_shiftLeft_one, hf]

/-! ## Loads, logic and the sums and differences -/

/-- Settles O15: each word is its instruction's own, and the one write of each is made before the end of an
instruction checks pc. -/
theorem immediateLoadAndAdd : Obligations.ImmediateLoadAndAdd := by
  intro s p x kk
  rw [← BitVec.add_def]
  exact ⟨decode_encode_of_ne_sys p (i := .ldImm x kk) nofun, decode_encode_of_ne_sys p (i := .addImm x kk) nofun,
    fun hpc => ⟨finish_ok _ hpc, finish_ok _ hpc⟩, fun hpc => ⟨finish_fault _ hpc, finish_fault _ hpc⟩⟩

/-- Settles O16: operator 8 decodes as said of it already, and each of the four writes Vx alone. -/
theorem copyAndLogicWriteVxOnly : Obligations.CopyAndLogicWriteVxOnly := fun _ p x y =>
  have ⟨copy, or, and, xor, _⟩ := secondLevelDispatchOfEightEAndF.1 p x y
  ⟨⟨copy, or, and, xor⟩, fun hpc => ⟨finish_ok _ hpc, finish_ok _ hpc, finish_ok _ hpc, finish_ok _ hpc⟩,
    fun hpc => ⟨finish_fault _ hpc, finish_fault _ hpc, finish_fault _ hpc, finish_fault _ hpc⟩⟩

/-- Settles O17: the sum and the carry are both of the old values, so the write of Vx does not reach the flag. -/
theorem addWritesSumThenCarry : Obligations.AddWritesSumThenCarry := by
  intro s p x y
  rw [← BitVec.add_def, ← flagByte_decide]
  exact ⟨decode_encode_of_ne_sys p (i := .addReg x y) nofun, finish_ok _, finish_fault _⟩

/-- Settles O18: the byte difference is that of the integers, and "no borrow" is of the old values. -/
theorem subAndSubnWriteDifferenceThenNoBorrow : Obligations.SubAndSubnWriteDifferenceThenNoBorrow := by
  intro s p x y
  simp only [← byte_sub_eq_ofInt, ← flagByte_decide]
  exact ⟨decode_encode_of_ne_sys p (i := .sub x y) nofun, decode_encode_of_ne_sys p (i := .subn x y) nofun,
    fun hpc => ⟨finish_ok _ hpc, finish_ok _ hpc⟩, fun hpc => ⟨finish_fault _ hpc, finish_fault _ hpc⟩⟩

/-! ## The shifts -/

section Shift

variable {s : State} (shift : Byte → Byte) (f : Byte)

/-- A shift of a register other than VF writes VF, then Vx (spec/43_register_alu.md R259, R261). -/
theorem finish_shiftWrites_other {x : Nibble} (hx : x ≠ vF) (hpc : s.pc.toNat + 2 ≤ s.limit) :
    finish s (shiftWrites s x shift f) =
      .next { s with v := (s.v.set 15 f).set x.toNat (shift (s.getV x)) x.isLt, pc := s.pc + 2#16 } := by
  rw [shiftWrites_other s shift f hx]
  exact finish_ok _ hpc

/-- A shift of VF leaves one of the three readings in it (spec/92_eei_decisions.md D13). -/
theorem finish_shiftWrites_vF (hpc : s.pc.toNat + 2 ≤ s.limit) :
    ∃ (b : Byte) (d : Nat), (b = shift (s.getV vF) ∨ b = shift f ∨ b = f) ∧
      finish s (shiftWrites s vF shift f) = .next { s with v := s.v.set 15 b, pc := s.pc + 2#16, draws := d } := by
  rw [shiftWrites_vF]
  exact ⟨_, _, shiftReadingOf_cases .., finish_ok _ hpc⟩

end Shift

/-- Settles O19: the half and bit 0 are the shift and the flag, and the flag shifted is 0. -/
theorem shrShiftsRightByOne : Obligations.ShrShiftsRightByOne := by
  intro s p x y
  rw [← byte_shiftRight_one, ← lsbOf_eq, ← lsbOf_shiftRight_one (s.getV x)]
  refine ⟨decode_encode_of_ne_sys p (i := .shr x y) nofun, finish_shiftWrites_other (· >>> 1) _, ?_, finish_fault _⟩
  rintro rfl
  exact finish_shiftWrites_vF (· >>> 1) _

/-- Settles O20: the double and bit 7 are the shift and the flag, and the flag shifted is twice bit 7. -/
theorem shlShiftsLeftByOne : Obligations.ShlShiftsLeftByOne := by
  intro s p x y
  rw [← byte_shiftLeft_one, ← msbOf_shiftLeft_one, ← msbOf_eq]
  refine ⟨decode_encode_of_ne_sys p (i := .shl x y) nofun, finish_shiftWrites_other (· <<< 1) _, ?_, finish_fault _⟩
  rintro rfl
  exact finish_shiftWrites_vF (· <<< 1) _

end Sys2Proof.Machine
end

section
/-! Statements of the family `44_index_memory`: I, and the transfers between registers and memory. -/

namespace Sys2Proof.Machine

/-! ## An instruction that ends by writing I -/

section CheckedI

variable {s : State} (u : State) {value : Nat}

theorem finishWithI_ok (hv : value ≤ s.limit) (hpc : s.pc.toNat + 2 ≤ s.limit) :
    finishWithI s u value = .next { u with i := BitVec.ofNat 16 value, pc := s.pc + 2#16 } := by
  rw [finishWithI, checkAddr_ok hv]
  exact finish_ok _ hpc

theorem finishWithI_iOverflow (hv : s.limit < value) : finishWithI s u value = raise .iOverflow s := by
  rw [finishWithI, checkAddr_none hv]

theorem finishWithI_pcOverflow (hv : value ≤ s.limit) (hpc : s.limit < s.pc.toNat + 2) :
    finishWithI s u value = raise .pcOverflow s := by
  rw [finishWithI, checkAddr_ok hv]
  exact finish_fault _ hpc

end CheckedI

theorem raise_ne_next {code : FaultCode} {s t : State} (ht : t.mode ≠ .fault) : raise code s ≠ .next t := fun h =>
  ht (raise_next h ▸ raiseFault_mode code s)

/-- Where no fault is taken, I holds the value itself: a checked value fits in sixteen bits. -/
theorem finishWithI_completed {s u t : State} {value : Nat} (h : finishWithI s u value = .next t)
    (ht : t.mode ≠ .fault) : ∃ j w : Word, j.toNat = value ∧ t = { u with i := j, pc := w } := by
  rcases finishWithI_cases s u value with ⟨-, e⟩ | ⟨hv, e⟩ <;> rw [e] at h
  · exact absurd h (raise_ne_next ht)
  · rcases finishAt_next h with rfl | ⟨w, -, rfl⟩
    · exact absurd rfl ht
    · have hmax := (limit_bounds s).2
      exact ⟨BitVec.ofNat 16 value, w, Nat.mod_eq_of_lt (by omega), rfl⟩

/-! ## The new values of I, as 16-bit words -/

theorem ofNat_add_register (i : Word) (b : Byte) : BitVec.ofNat 16 (i.toNat + b.toNat) = i + b.setWidth 16 := by
  rw [ofNat_add_toNat, BitVec.ofNat_toNat]

theorem ofNat_glyphAddr (b : Byte) : BitVec.ofNat 16 (glyphAddr b) = 5#16 * b.setWidth 16 := by
  rw [glyphAddr, Nat.zero_add, BitVec.ofNat_mul, BitVec.ofNat_toNat]

/-- The address after the block V0 to Vx. -/
theorem ofNat_block_end (i : Word) (x : Nibble) :
    BitVec.ofNat 16 (i.toNat + x.toNat + 1) = i + x.setWidth 16 + 1#16 := by
  rw [BitVec.ofNat_add, ofNat_add_toNat, BitVec.ofNat_toNat]

/-- No glyph address overflows I, whatever the register holds (spec/44_index_memory.md R292). -/
theorem glyphAddr_le_limit (s : State) (b : Byte) : glyphAddr b ≤ s.limit := by
  have hmin := (limit_bounds s).1
  have hb := b.isLt
  rw [glyphAddr]
  omega

/-! ## I alone -/

/-- Settles O21: LD I makes its one write before the end of an instruction checks pc. -/
theorem ldIWritesI : Obligations.LdIWritesI := fun _ p nnn =>
  ⟨decode_encode_of_ne_sys p (i := .ldI nnn) nofun, finish_ok _, finish_fault _⟩

/-- Settles O22: ADD I has no write but the sum, whose check comes first. -/
theorem addIAddsVx : Obligations.AddIAddsVx := by
  intro s p x
  rw [← ofNat_add_register]
  exact ⟨decode_encode_of_ne_sys p (i := .addI x) nofun, finishWithI_ok s, finishWithI_iOverflow s,
    finishWithI_pcOverflow s⟩

/-- Settles O23: the glyph address always passes the check of I, which leaves the check of pc. -/
theorem ldFPointsAtGlyph : Obligations.LdFPointsAtGlyph := by
  intro s p x
  have hglyph := glyphAddr_le_limit s (s.getV x)
  rw [← ofNat_glyphAddr]
  exact ⟨decode_encode_of_ne_sys p (i := .ldF x) nofun, finishWithI_ok s hglyph, finishWithI_pcOverflow s hglyph⟩

/-! ## Stores at I -/

/-- What FX33 and FX55 share: `bs` stored at I, then the rest of the instruction on the memory left, or the store's
fault (spec/44_index_memory.md R293, R294). -/
def storeThen (s : State) (bs : List Byte) (rest : Memory → Result) : Result :=
  match memWrite s s.i.toNat bs with
  | .error code => raise code s
  | .ok m => rest m

theorem exec_ldB_eq (x : Nibble) (s : State) :
    exec (.ldB x) s = storeThen s (digits (s.getV x)) fun m => finish s { s with mem := m } := rfl

theorem exec_ldMemVx_eq (x : Nibble) (s : State) :
    exec (.ldMemVx x) s =
      storeThen s (s.regsTo x) fun m => finishWithI s { s with mem := m } (s.i.toNat + x.toNat + 1) := rfl

section Store

variable {s : State} {bs : List Byte} (rest : Memory → Result) {n : Nat} (hlen : bs.length = n + 1)
include hlen

/-- The last byte of the store is at I + n. -/
theorem store_inside_iff : s.i.toNat + bs.length ≤ Config.memSize ↔ s.i.toNat + n ≤ 0xFFF := by
  rw [Config.memSize, hlen]
  omega

theorem storeThen_memOob (h : 0xFFF < s.i.toNat + n) : storeThen s bs rest = raise .memOob s := by
  have hoob := Nat.lt_of_not_le (mt (store_inside_iff hlen).mp (Nat.not_le_of_lt h))
  simp only [storeThen, memWrite_oob (by omega) hoob]

theorem storeThen_fontWrite (h : s.i.toNat + n ≤ 0xFFF) (hfont : s.i.toNat ≤ 0x04F) :
    storeThen s bs rest = raise .fontWrite s := by
  have hin := (store_inside_iff hlen).mpr h
  simp only [storeThen, memWrite_font (by omega) hin (Nat.lt_succ_of_le hfont)]

theorem storeThen_ok (h : s.i.toNat + n ≤ 0xFFF) (hfont : 0x04F < s.i.toNat) :
    storeThen s bs rest = rest (Memory.writeList s.mem s.i.toNat bs) := by
  have hin := (store_inside_iff hlen).mpr h
  simp only [storeThen, memWrite_ok (.inr hin) hfont]

end Store

/-- Where no fault is taken, the store is inside memory and was made. -/
theorem storeThen_completed {s t : State} {bs : List Byte} {rest : Memory → Result}
    (h : storeThen s bs rest = .next t) (ht : t.mode ≠ .fault) :
    (bs.length = 0 ∨ s.i.toNat + bs.length ≤ Config.memSize) ∧
      rest (Memory.writeList s.mem s.i.toNat bs) = .next t := by
  rw [storeThen] at h
  rcases memWrite_cases s s.i.toNat bs with ⟨-, -, e⟩ | ⟨-, -, -, e⟩ | ⟨hin, -, e⟩ <;> rw [e] at h
  · exact absurd h (raise_ne_next ht)
  · exact absurd h (raise_ne_next ht)
  · exact ⟨hin, h⟩

/-! ## FX33 -/

theorem digits_length (b : Byte) : (digits b).length = 2 + 1 := rfl

/-- The three digits are read back where they were stored, each below 256 (spec/44_index_memory.md R293). -/
theorem read_writeList_digits (m : Memory) (b : Byte) {a : Nat} (ha : a + 2 ≤ 0xFFF) :
    (Memory.read (Memory.writeList m a (digits b)) a).toNat = b.toNat / 100 ∧
    (Memory.read (Memory.writeList m a (digits b)) (a + 1)).toNat = b.toNat / 10 % 10 ∧
    (Memory.read (Memory.writeList m a (digits b)) (a + 2)).toNat = b.toNat % 10 := by
  have hb := b.isLt
  have hin : a + (digits b).length ≤ Config.memSize := Nat.succ_le_succ ha
  have stored (k : Nat) (hk : k < 3) := congrArg BitVec.toNat (read_writeList_inside (digits b) m a k hk hin)
  refine ⟨(stored 0 (by decide)).trans ?hundreds, (stored 1 (by decide)).trans ?tens,
    (stored 2 (by decide)).trans ?ones⟩
  case hundreds | tens | ones => exact Nat.mod_eq_of_lt (by omega)

/-- Settles O24: the store at I faults in its own order, and pc is checked after it. -/
theorem ldBStoresDecimalDigits : Obligations.LdBStoresDecimalDigits := by
  intro s p x
  have hlen := digits_length (s.getV x)
  rw [exec_ldB_eq]
  refine ⟨decode_encode_of_ne_sys p (i := .ldB x) nofun, fun h hfont hpc => ?stored, storeThen_memOob _ hlen,
    fun hfont => storeThen_fontWrite _ hlen (by omega) hfont, fun h hfont hpc => ?pcOverflow⟩
  case stored =>
    obtain ⟨hundreds, tens, ones⟩ := read_writeList_digits s.mem (s.getV x) h
    refine ⟨_, (storeThen_ok _ hlen h hfont).trans (finish_ok _ hpc), hundreds, tens, ones, fun a ha => ?_⟩
    exact read_writeList_outside _ _ _ _ (by omega)
  case pcOverflow => exact (storeThen_ok _ hlen h hfont).trans (finish_fault _ hpc)

/-! ## FX55 -/

/-- The registers stored are read back where they were stored (spec/44_index_memory.md R294). -/
theorem read_writeList_regsTo (s : State) (m : Memory) {a : Nat} {x k : Nibble}
    (ha : a + (s.regsTo x).length ≤ Config.memSize) (hk : k.toNat ≤ x.toNat) :
    Memory.read (Memory.writeList m a (s.regsTo x)) (a + k.toNat) = s.getV k := by
  have hlt : k.toNat < (s.regsTo x).length := by
    rw [regsTo_length]
    omega
  rw [read_writeList_inside _ m a _ hlt ha, regsTo_get]

/-- Settles O25: the store at I faults in its own order, and I and pc are checked after it. -/
theorem ldMemVxStoresTheBlock : Obligations.LdMemVxStoresTheBlock := by
  intro s p x
  have hx := x.isLt
  have hlen := regsTo_length s x
  rw [exec_ldMemVx_eq, ← ofNat_block_end]
  refine ⟨decode_encode_of_ne_sys p (i := .ldMemVx x) nofun, fun h hfont hi hpc => ?_, storeThen_memOob _ hlen,
    fun hfont => storeThen_fontWrite _ hlen (by omega) hfont,
    fun h hfont hi => (storeThen_ok _ hlen h hfont).trans (finishWithI_iOverflow _ hi),
    fun h hfont hi hpc => (storeThen_ok _ hlen h hfont).trans (finishWithI_pcOverflow _ hi hpc)⟩
  refine ⟨_, (storeThen_ok _ hlen h hfont).trans (finishWithI_ok _ hi hpc), fun k => ?_, fun a ha => ?_⟩
  · exact read_writeList_regsTo s s.mem (by rw [hlen]; exact Nat.succ_le_succ h)
  · exact read_writeList_outside _ _ _ _ (by omega)

/-! ## FX65 -/

/-- The bytes at I that FX65 loads into V0 to Vx. -/
def blockAtI (s : State) (x : Nibble) : List Byte :=
  (List.range (x.toNat + 1)).map fun k => Memory.read s.mem (s.i.toNat + k)

/-- V0 to Vx hold the bytes at I, and the registers above Vx are as before (spec/44_index_memory.md R295). -/
theorem loadV_blockAtI (s : State) (x : Nibble) {j : Nat} (hj : j < 16) :
    (s.loadV (blockAtI s x)).v[j] = if j ≤ x.toNat then Memory.read s.mem (s.i.toNat + j) else s.v[j] := by
  have hrange : (0 ≤ j ∧ j < 0 + (blockAtI s x).length) ↔ j ≤ x.toNat := by
    simp only [blockAtI, List.length_map, List.length_range]
    omega
  simp only [loadV_v, setFrom_get, hrange]
  split
  · simp [blockAtI]
  · rfl

theorem exec_ldVxMem_memOob {s : State} {x : Nibble} (h : 0xFFF < s.i.toNat + x.toNat) :
    exec (.ldVxMem x) s = raise .memOob s := by
  simp only [exec, execLdVxMem, memRead_oob x.toNat.succ_pos (Nat.succ_lt_succ h)]

theorem exec_ldVxMem_inRange {s : State} {x : Nibble} (h : s.i.toNat + x.toNat ≤ 0xFFF) :
    exec (.ldVxMem x) s = finishWithI s (s.loadV (blockAtI s x)) (s.i.toNat + x.toNat + 1) := by
  have hin : s.i.toNat + (x.toNat + 1) ≤ Config.memSize := Nat.succ_le_succ h
  simp only [exec, execLdVxMem, memRead_ok (.inr hin), blockAtI]

/-- Settles O26: MEM_OOB where a byte at I is outside, otherwise the load, and I and pc are checked after it. -/
theorem ldVxMemLoadsTheBlock : Obligations.LdVxMemLoadsTheBlock := by
  intro s p x
  rw [← ofNat_block_end]
  exact ⟨decode_encode_of_ne_sys p (i := .ldVxMem x) nofun,
    fun h hi hpc => ⟨_, (exec_ldVxMem_inRange h).trans (finishWithI_ok _ hi hpc), fun k => loadV_blockAtI s x k.isLt⟩,
    exec_ldVxMem_memOob,
    fun h hi => (exec_ldVxMem_inRange h).trans (finishWithI_iOverflow _ hi),
    fun h hi hpc => (exec_ldVxMem_inRange h).trans (finishWithI_pcOverflow _ hi hpc)⟩

/-! ## FX55, then FX65 -/

theorem exec_ldMemVx_completed {s t : State} {x : Nibble} (h : exec (.ldMemVx x) s = .next t) (ht : t.mode ≠ .fault) :
    s.i.toNat + (s.regsTo x).length ≤ Config.memSize ∧ t.mem = Memory.writeList s.mem s.i.toNat (s.regsTo x) ∧
      t.i.toNat = s.i.toNat + x.toNat + 1 := by
  rw [exec_ldMemVx_eq] at h
  obtain ⟨hin, h⟩ := storeThen_completed h ht
  obtain ⟨j, w, hj, rfl⟩ := finishWithI_completed h ht
  exact ⟨hin.resolve_left (by simp [regsTo_length]), rfl, hj⟩

theorem exec_ldVxMem_completed {s t : State} {x : Nibble} (h : exec (.ldVxMem x) s = .next t) (ht : t.mode ≠ .fault) :
    t.v = (s.loadV (blockAtI s x)).v ∧ t.i.toNat = s.i.toNat + x.toNat + 1 := by
  by_cases hin : s.i.toNat + x.toNat ≤ 0xFFF
  · rw [exec_ldVxMem_inRange hin] at h
    obtain ⟨j, w, hj, rfl⟩ := finishWithI_completed h ht
    exact ⟨rfl, hj⟩
  · rw [exec_ldVxMem_memOob (Nat.lt_of_not_le hin)] at h
    exact absurd h (raise_ne_next ht)

/-- Settles O27: the load reads, from the memory and at the I of the store, the bytes that the store left there. -/
theorem storeThenLoadRestoresRegisters : Obligations.StoreThenLoadRestoresRegisters := by
  intro s t u w x hst ht hmem hi huw hw
  obtain ⟨hin, htmem, hti⟩ := exec_ldMemVx_completed hst ht
  obtain ⟨hwv, hwi⟩ := exec_ldVxMem_completed huw hw
  refine ⟨fun k hk => ?_, hti, by rw [hwi, hi]⟩
  calc w.getV k = (u.loadV (blockAtI u x)).v[k.toNat] := by simp only [State.getV, hwv]
    _ = Memory.read u.mem (u.i.toNat + k.toNat) := by rw [loadV_blockAtI u x k.isLt, if_pos hk]
    _ = Memory.read (Memory.writeList s.mem s.i.toNat (s.regsTo x)) (s.i.toNat + k.toNat) := by rw [hmem, hi, htmem]
    _ = s.getV k := read_writeList_regsTo s s.mem hin hk

end Sys2Proof.Machine
end

section
/-! Statements of the family `45_timers_keys_random`: RND, the key instructions, the timers and the tick. -/

namespace Sys2Proof.Machine

/-! ## The tick -/

section Enabled

variable {s : State} (hc : s.cancel = false) (hm : s.mode = .run ∨ s.mode = .keyWait)
include hc hm

theorem tick_enabled : tick s = { s with dt := countDown s.dt, st := countDown s.st } :=
  if_pos (by simp [tickEnabled, hc, (loopAlive_iff s).mpr hm])

/-- A tick keeps what enables it, so any number of them counts both timers down together. -/
theorem iterate_tick (n : Nat) :
    tick^[n] s = { s with dt := countDown^[n] s.dt, st := countDown^[n] s.st } := by
  induction n with
  | zero => rfl
  | succ n ih =>
    simp only [Function.iterate_succ_apply', ih]
    exact tick_enabled hc hm

end Enabled

theorem tick_cancelled {s : State} (hc : s.cancel = true) : tick s = s := if_neg (by simp [tickEnabled, hc])

theorem iterate_countDown_toNat (b : Byte) (n : Nat) : (countDown^[n] b).toNat = b.toNat - n := by
  induction n with
  | zero => rfl
  | succ n ih => rw [Function.iterate_succ_apply', countDown_toNat, ih, Nat.sub_sub]

/-- Settles O38: both timers count down where the tick is enabled, and CANCEL or a terminal state disables it. -/
theorem tickDecrementsBothTimers : Obligations.TickDecrementsBothTimers := fun _ =>
  ⟨fun ⟨hc, hm⟩ => ⟨_, _, countDown_toNat _, countDown_toNat _, tick_enabled hc hm⟩,
    fun h => h.elim tick_cancelled tick_terminal⟩

/-! ## The timer instructions -/

/-- Settles O37: each word is its instruction's own, and each instruction makes its one write before the end checks
pc. -/
theorem timerReadsAndWrites : Obligations.TimerReadsAndWrites := fun _ p x =>
  ⟨⟨decode_encode_of_ne_sys p (i := .ldVxDt x) nofun, decode_encode_of_ne_sys p (i := .ldDtVx x) nofun,
      decode_encode_of_ne_sys p (i := .ldStVx x) nofun⟩,
    fun hpc => ⟨finish_ok _ hpc, finish_ok _ hpc, finish_ok _ hpc⟩,
    fun hpc => ⟨finish_fault _ hpc, finish_fault _ hpc, finish_fault _ hpc⟩⟩

/-- Settles O39: the ticks change the timers alone, so FX07 completes, and the delay timer it reads has counted down
`t` times. -/
theorem fx07ReadsWrittenValueLessTicks : Obligations.FX07ReadsWrittenValueLessTicks := by
  intro s t x hc hm hpc
  rw [iterate_tick hc (.inl hm)]
  refine ⟨_, finish_ok _ hpc, ?_⟩
  exact (congrArg BitVec.toNat (getV_setV_same ..)).trans (iterate_countDown_toNat s.dt t)

/-! ## RND -/

/-- Settles O34: the byte is whatever the source gave the draw (log entry 7). -/
theorem rndMasksTheDraw : Obligations.RndMasksTheDraw := fun s p x kk =>
  ⟨decode_encode_of_ne_sys p (i := .rnd x kk) nofun,
    fun hpc => ⟨Config.freeByte s.draws, s.draws + 1, finish_ok _ hpc⟩, finish_fault _⟩

/-! ## Keys -/

theorem zext8_toNat (k : Nibble) : (zext8 k).toNat = k.toNat := BitVec.toNat_setWidth_of_le (by decide)

/-- The match compares all 8 bits of the register, so a value above 0xF matches no key
(spec/45_timers_keys_random.md R333). -/
theorem keyMatches_iff (e : Option Nibble) (b : Byte) :
    keyMatches e b = true ↔ ∃ k, e = some k ∧ k.toNat = b.toNat := by
  cases e with
  | none => simp [keyMatches]
  | some k =>
    calc keyMatches (some k) b = true
      _ ↔ zext8 k = b := decide_eq_true_iff
      _ ↔ k.toNat = b.toNat := by rw [← BitVec.toNat_inj, zext8_toNat]
      _ ↔ ∃ k', some k = some k' ∧ k'.toNat = b.toNat := by simp

/-- SKP removes the head event, matching or not, and skips on the match (spec/45_timers_keys_random.md R331). -/
theorem exec_skp_eq (x : Nibble) (s : State) :
    exec (.skp x) s = skipIf s { s with kq := s.kq.tail } (keyMatches s.kq.head? (s.getV x)) := by
  simp only [exec, execSkp, keyPoll_eq]

/-- SKNP makes the same removal and skips on no match (spec/45_timers_keys_random.md R332). -/
theorem exec_sknp_eq (x : Nibble) (s : State) :
    exec (.sknp x) s = skipIf s { s with kq := s.kq.tail } (!keyMatches s.kq.head? (s.getV x)) := by
  simp only [exec, execSknp, keyPoll_eq]

/-- Settles O35: `hit` is the match, which SKP skips on and SKNP on the negation of; where the end of the skip
faults, the removal is not committed. -/
theorem keySkipsConsumeTheHeadEvent : Obligations.KeySkipsConsumeTheHeadEvent := by
  intro s p x hit hhit
  have hmatch : keyMatches s.kq.head? (s.getV x) = hit :=
    Bool.eq_iff_iff.mpr ((keyMatches_iff _ _).trans hhit.symm)
  rw [exec_skp_eq, exec_sknp_eq, hmatch]
  refine ⟨decode_encode_of_ne_sys p (i := .skp x) nofun, decode_encode_of_ne_sys p (i := .sknp x) nofun,
    fun n hn => ⟨skipIf_ok hn, skipIf_fault hn⟩, fun n hn => ?_⟩
  have hlength : n = if !hit then 4 else 2 := by rw [hn]; cases hit <;> rfl
  exact ⟨skipIf_ok hlength, skipIf_fault hlength⟩

section LdVxK

variable {s : State} (x : Nibble)

theorem exec_ldVxK_event {k : Nibble} {rest : List Nibble} (hk : s.kq = k :: rest) :
    exec (.ldVxK x) s = finish s ({ s with kq := rest }.setV x (zext8 k)) := by
  simp only [exec, execLdVxK, hk]

theorem exec_ldVxK_wait (hk : s.kq = []) : exec (.ldVxK x) s = .next { s with kwReg := x, mode := .keyWait } := by
  simp only [exec, execLdVxK, hk]

end LdVxK

/-- Settles O36: a queued event leaves an instruction that ends as others do, and the wait checks no pc. -/
theorem ldVxKTakesAKeyOrWaits : Obligations.LdVxKTakesAKeyOrWaits := by
  intro s p x
  refine ⟨decode_encode_of_ne_sys p (i := .ldVxK x) nofun,
    fun k rest hk hpc => (exec_ldVxK_event x hk).trans (finish_ok _ hpc), fun hk hpc => ?_, exec_ldVxK_wait x⟩
  obtain ⟨k, rest, hk⟩ := List.exists_cons_of_ne_nil hk
  exact (exec_ldVxK_event x hk).trans (finish_fault _ hpc)

end Sys2Proof.Machine
end

section
/-! Statements of the family `60_exceptions`: precise faults. -/

namespace Sys2Proof.Machine

/-- `t` is `s` with a fault taken and nothing else changed (spec/60_exceptions.md R362). -/
def TakesFault (s t : State) : Prop := ∃ code, code ≠ .none ∧ t = raiseFault code s

/-- An instruction that completes stays in RUN or begins a wait, so one that ends in FAULT took a fault. -/
theorem exec_takesFault {i : Instr} {s t : State} (hm : s.mode = .run) (h : exec i s = .next t)
    (ht : t.mode = .fault) : TakesFault s t := by
  rcases exec_next h with hfault | hc
  · exact hfault
  · rcases completes_mode hc with e | ⟨-, e, -⟩ <;> simp [e, hm] at ht

theorem runCycle_takesFault {s t : State} (hm : s.mode = .run) (h : runCycle s = .next t) (ht : t.mode = .fault) :
    TakesFault s t := by
  rcases runCycle_next h with ⟨-, rfl⟩ | ⟨-, (rfl | rfl) | ⟨w, i, u, -, -, hu, rfl⟩⟩
  · simp at ht
  · exact ⟨_, by decide, rfl⟩
  · exact ⟨_, by decide, rfl⟩
  · rw [ite_publish_mode] at ht
    simpa [ht] using exec_takesFault hm hu ht

theorem keyWaitStep_takesFault {s t : State} (hm : s.mode = .keyWait) (h : keyWaitStep s = .next t)
    (ht : t.mode = .fault) : TakesFault s t := by
  rcases keyWaitStep_next h with ⟨-, rfl⟩ | ⟨-, -, rfl⟩ | ⟨k, rest, -, ⟨-, rfl⟩ | ⟨-, rfl⟩⟩
  · simp at ht
  · simp [hm] at ht
  · exact ⟨_, by decide, rfl⟩
  · simp [keyDone] at ht

theorem loopStep_takesFault {s t : State} (h : loopStep s = .next t) (ht : t.mode = .fault) : TakesFault s t := by
  rcases loopStep_next h with ⟨hm, h⟩ | ⟨hm, h⟩
  · exact runCycle_takesFault hm h ht
  · exact keyWaitStep_takesFault hm h ht

/-- In TERMINATED and FAULT every agent's step keeps `status_out` (spec/10_state.md R76). -/
theorem agentStep_terminal_statusOut {m : Move} {s t : State} (hm : s.mode = .terminated ∨ s.mode = .fault)
    (h : agentStep m s = .next t) : t.statusOut = s.statusOut := by
  obtain ⟨-, -, hagent⟩ := terminalStatesAreFinal s hm
  obtain ⟨kq, cancel, frames, e, -⟩ := hagent m
  cases h.symm.trans e
  rfl

theorem step_terminal_statusOut {s t : State} (hm : s.mode = .terminated ∨ s.mode = .fault)
    (h : step s = .next t) : t.statusOut = s.statusOut := by
  rcases nextStep_next h with ⟨-, h⟩ | ⟨m, rest, -, h⟩
  · exact absurd h (loopStep_terminal hm t)
  · exact agentStep_terminal_statusOut (s := { s with agenda := rest }) hm h

/-- Settles O50: a step of the loop reaches FAULT only by FAULT ENTRY from the state before it, and in FAULT no agent
touches MODE or FCODE. -/
theorem faultsArePrecise : Obligations.FaultsArePrecise := by
  refine ⟨fun s t _ => loopStep_takesFault, fun s t hm => loopStep_terminal (.inr hm) t, fun s t hm h => ?_⟩
  obtain ⟨hmode, hcode⟩ := Prod.mk.inj (step_terminal_statusOut (.inr hm) h)
  exact ⟨hmode.trans hm, hcode⟩

end Sys2Proof.Machine
end

section
/-! Statements of the family `70_reset_and_hazards`: reset and the load of the image. -/

namespace Sys2Proof.Machine

/-! ## The memory that reset leaves -/

section LoadMem

variable {l : Launch} {rom : List Byte}

theorem wf_loadMem (h : Memory.wf l.mem) : Memory.wf (loadMem l rom) := wf_writeList _ _ (wf_writeList _ _ h)

/-- The image lies above the font, so its load leaves the font as it was written. -/
theorem read_loadMem_font (k : Fin 80) : Memory.read (loadMem l rom) k.val = l.fontRom[k] := by
  have hk : k.val < l.fontRom.toList.length := by simp
  have hfont : Memory.read (Memory.writeList l.mem 0 l.fontRom.toList) (0 + k.val) = l.fontRom.toList[k.val] :=
    read_writeList_inside _ _ _ _ hk (by simp [Config.memSize])
  rw [loadMem, read_writeList_outside _ _ _ _ (by simp only [Config.entryPoint]; omega)]
  simpa using hfont

/-- An image of at most 3584 bytes ends inside the space (spec/70_reset_and_hazards.md R391). -/
theorem read_loadMem_image (hrom : rom.length ≤ Config.maxRom) {k : Nat} (hk : k < rom.length) :
    Memory.read (loadMem l rom) (Config.entryPoint + k) = rom[k] :=
  read_writeList_inside _ _ _ _ hk (Nat.add_le_add_left hrom _)

theorem read_loadMem_elsewhere {a : Nat} (hfont : Config.fontSize ≤ a)
    (himage : a < Config.entryPoint ∨ Config.entryPoint + rom.length ≤ a) :
    Memory.read (loadMem l rom) a = Memory.read l.mem a := by
  have hlen : 0 + l.fontRom.toList.length ≤ a := by simpa [Config.fontSize] using hfont
  rw [loadMem, read_writeList_outside _ _ _ _ himage, read_writeList_outside _ _ _ _ (.inr hlen)]

end LoadMem

/-! ## The two ends of a reset -/

theorem boot_of_fits {l : Launch} (h : l.rom.length ≤ Config.maxRom) : boot l = bootWith l l.rom :=
  if_neg (Nat.not_lt.mpr h)

theorem boot_of_tooLarge {l : Launch} (h : Config.maxRom < l.rom.length) :
    boot l = raiseFault .romTooLarge (bootWith l []) := if_pos h

/-- The stack starts empty and the entry point is within every limit, so only memory and I rest on the launch. -/
theorem bootWith_inv {l : Launch} (rom : List Byte) (hmem : Memory.wf l.mem)
    (hi : l.i.toNat ≤ Config.limitOf l.params.addrLimit) : (bootWith l rom).Inv := by
  have hpc : (bootWith l rom).pc.toNat ≤ (bootWith l rom).limit :=
    Nat.le_trans (by decide : 0x200 ≤ 0x0FFF) (limit_bounds _).1
  exact .of_run rfl rfl (wf_loadMem hmem) hpc hi fun _ hk => absurd hk (Nat.not_lt_zero _)

/-- Settles O57: the state with the image loaded meets the invariant, and so does the fault taken with no image. -/
theorem bootMeetsTheInvariant : Obligations.BootMeetsTheInvariant := by
  intro l hmem hi
  rcases Nat.lt_or_ge Config.maxRom l.rom.length with h | h
  · rw [boot_of_tooLarge h]
    exact (bootWith_inv [] hmem hi).raiseFault (by decide)
  · rw [boot_of_fits h]
    exact bootWith_inv l.rom hmem hi

/-- Settles O59: the image and the font do not overlap, and a reset in FAULT has the memory of one with no image. -/
theorem resetLoadsFontAndRom : Obligations.ResetLoadsFontAndRom := by
  refine fun l => ⟨fun h => ?_, fun h => ?_⟩
  · rw [boot_of_fits h]
    exact ⟨rfl, rfl, rfl, rfl, rfl, rfl, rfl, rfl, rfl, rfl, rfl, rfl, read_loadMem_font,
      fun _ hk => read_loadMem_image h hk, fun _ hfont himage => read_loadMem_elsewhere hfont himage⟩
  · rw [boot_of_tooLarge h, boot_of_fits (l := { l with rom := [] }) (Nat.zero_le _)]
    exact ⟨rfl, rfl, loopStep_terminal (.inr rfl), fun _ => rfl⟩

end Sys2Proof.Machine
end

section
/-! Statements of the family `other`: the words of the spec's test vectors under the decoder. -/

namespace Sys2Proof

/-! ## A row's word by what the decoder answers on it -/

section Row

variable {nbits w : Nat}

theorem decodeTableWord_of_encode (i : Instr) (hw : tableWord nbits w = encode i) (hwf : i.wellFormed = true) :
    decodeTableWord nbits w = some i := by
  rw [decodeTableWord_eq, hw, decodeOfEncodeIsTheInstruction _ i rfl hwf]

theorem decodeTableWord_of_illegal {v : Word} (hv : decode Config.defaults v = .illegal) (hw : tableWord nbits w = v) :
    decodeTableWord nbits w = none := by
  rw [decodeTableWord_eq, hw, hv]

end Row

/-- Settles O6: eleven words are the encodings of their instructions, and the other four are illegal under operator 5
by the low nibble, and under 8, E and F by the sub-opcode. -/
theorem wordsOfTheTestVectorsDecode : Obligations.WordsOfTheTestVectorsDecode := by
  have own {w : Nat} (i : Instr) := decodeTableWord_of_encode (nbits := 16) (w := w) i
  have lowNibble := (operatorsFiveAndNineTestTheLowNibble.2.1 Config.defaults 1#4 2#4 1#4 rfl (by decide)).1
  have eight := decode_eight_illegal Config.defaults 1#4 2#4 (n := 0xA#4) (by decide)
  have opE := decode_E_illegal Config.defaults 1#4 (kk := 0x9F#8) (by decide)
  have opF := decode_F_illegal Config.defaults 0#4 (kk := 0x30#8) (by decide)
  exact ⟨own (.jp 0x234#12) rfl rfl, own .cls rfl rfl, own .ret rfl rfl, own (.sys 0#12) rfl rfl,
    own (.sys 0x1E0#12) rfl rfl, decodeTableWord_of_illegal lowNibble rfl, decodeTableWord_of_illegal eight rfl,
    decodeTableWord_of_illegal opE rfl, decodeTableWord_of_illegal opF rfl, own (.sub 3#4 2#4) rfl rfl,
    own (.drw 0xA#4 0xB#4 5#4) rfl rfl, own (.ldF 0xC#4) rfl rfl, own (.sknp 3#4) rfl rfl, own (.ldVxMem 2#4) rfl rfl,
    own (.rnd 1#4 0x0F#8) rfl rfl⟩

end Sys2Proof
end
